-- ==== Sys2Proof/Word.lean ====
section
/-! DEFINITION. The value types of the core: bytes, instruction words, addresses, nibbles and register numbers
(00_scope.md R9, R10; 10_state.md R16, R22, R25; 30_encoding.md R63, R64). Every value is unsigned (R10, R94). -/

namespace Sys2Proof

/-- An 8-bit value: a general register, a memory byte, a timer count (10_state.md R16, R28). -/
abbrev Byte := BitVec 8

/-- A 16-bit value: an instruction word or a call-stack entry (30_encoding.md R63, 10_state.md R26). -/
abbrev Word := BitVec 16

/-- A 12-bit value: the program counter, the index register, the NNN field (10_state.md R22, R25). -/
abbrev Addr := BitVec 12

/-- A 4-bit field of an instruction word (30_encoding.md R64). -/
abbrev Nibble := BitVec 4

/-- A register number, 0x0 to 0xF (10_state.md R16). -/
abbrev Reg := Fin 16

/-- A key code, 0x0 to 0xF (10_state.md R30). -/
abbrev KeyCode := Fin 16

/-- VF is `V[15]` (00_scope.md R13, 10_state.md R19). -/
abbrev Reg.VF : Reg := 15

/-- The nibble that holds a register number in an instruction word. -/
def Reg.toNibble (r : Reg) : Nibble := BitVec.ofFin r

/-- The register number a nibble holds: every nibble names a register (10_state.md R16). -/
def Reg.ofNibble (b : Nibble) : Reg := b.toFin

end Sys2Proof
end

