-- ==== Sys2Proof/Machine/Event.lean ====
section
/-! DEFINITION. The host's input events (60_exceptions.md R142). They stand before the configuration, which holds the
free sequence of them. -/

namespace Sys2Proof.Machine

/-- The input events that drive the core (60_exceptions.md R142). -/
inductive Event where
  | step                   -- one CPU step
  | delayTick              -- one period of the delay timer's tick source
  | soundTick              -- one period of the sound timer's tick source
  | press (k : KeyCode)    -- key k goes DOWN
  | release (k : KeyCode)  -- key k goes UP
  | ack                    -- the display consumer has read the frame
  deriving DecidableEq, Repr, Inhabited

end Sys2Proof.Machine
end

