-- ==== Sys2Proof/Config.lean ====
section
/-! DEFINITION. What the implementation fixes beyond doubt (sizes the source states, 00_scope.md R7) and the free
values: constants with no body, so that nothing can be proved of their values. The parameters that rest on a
decision of 92_eei_decisions.md are in `Sys2Proof/Machine/Params.lean`. -/

namespace Sys2Proof.Config

/-- `MEM_SIZE`: 4096 bytes (00_scope.md R7, 20_memory.md R40). -/
abbrev memSize : Nat := 4096

/-- `FRAME_W`: 64 columns (00_scope.md R7, 10_state.md R31). -/
abbrev frameWidth : Nat := 64

/-- `FRAME_H`: 32 rows (00_scope.md R7, 10_state.md R31). -/
abbrev frameHeight : Nat := 32

/-- `GLYPH_BYTES`: bytes per font glyph (00_scope.md R7, 20_memory.md R52). -/
abbrev glyphBytes : Nat := 5

/-- `NGLYPHS * GLYPH_BYTES`: the font's size in bytes (00_scope.md R7, 20_memory.md R52). -/
abbrev fontSize : Nat := 80

/-- FREE VALUE: the random byte of the k-th CXNN, "a free draw" under no law (42_alu.md R109, D10; log entry 1).
It has no body: a claim about it holds whatever the draws are. -/
opaque randomByte : Nat → Byte

/-- FREE VALUE: which of the DOWN keys the k-th choice takes when `FX0A_SELECT = any` (46_keypad.md R133;
log entry 4). Not used by this hardware, which takes the lowest key. -/
opaque anyKey : Nat → Nat

/-- FREE VALUE: the k-th event of the host's own choosing, in "any interleaving" with the others (60_exceptions.md R142,
D27; log entry 2). It has no body, so it stands for every endless sequence of events. -/
opaque hostEvent : Nat → Machine.Event

end Sys2Proof.Config
end

