-- ==== Sys2Proof/Machine/Params.lean ====
section
/-! DEFINITION. The parameters of 00_scope.md R7 that rest on a decision of 92_eei_decisions.md, at the value R7
gives for this hardware (log entry 4). Each definition that depends on one covers the other value too. -/

namespace Sys2Proof.Params

/-- `PROG_START`: address of the first program byte and initial pc (20_memory.md R51, D1). -/
def progStart : Nat := 0x200

/-- `FONT_BASE`: address of glyph 0 (20_memory.md R52, D2). -/
def fontBase : Nat := 0x000

/-- Glyphs 0 to 7 of `FONT_TABLE` (20_memory.md R53, D2). -/
def fontTableLow : List Byte :=
  [0xF0, 0x90, 0x90, 0x90, 0xF0,
   0x20, 0x60, 0x20, 0x20, 0x70,
   0xF0, 0x10, 0xF0, 0x80, 0xF0,
   0xF0, 0x10, 0xF0, 0x10, 0xF0,
   0x90, 0x90, 0xF0, 0x10, 0x10,
   0xF0, 0x80, 0xF0, 0x10, 0xF0,
   0xF0, 0x80, 0xF0, 0x90, 0xF0,
   0xF0, 0x10, 0x20, 0x40, 0x40]

/-- Glyphs 8 to F of `FONT_TABLE` (20_memory.md R53, D2). -/
def fontTableHigh : List Byte :=
  [0xF0, 0x90, 0xF0, 0x90, 0xF0,
   0xF0, 0x90, 0xF0, 0x10, 0xF0,
   0xF0, 0x90, 0xF0, 0x90, 0x90,
   0xE0, 0x90, 0xE0, 0x90, 0xE0,
   0xF0, 0x80, 0x80, 0x80, 0xF0,
   0xE0, 0x90, 0x90, 0x90, 0xE0,
   0xF0, 0x80, 0xF0, 0x80, 0xF0,
   0xF0, 0x80, 0xF0, 0x80, 0x80]

/-- `FONT_TABLE`: the 80 font bytes, 5 per glyph (20_memory.md R53, D2). -/
def fontTable : List Byte := fontTableLow ++ fontTableHigh

/-- `INIT_MEM`: the reset byte at an address outside the font and the program (70_reset_and_hazards.md R155, D6). -/
def initMem (_a : Nat) : Byte := 0x00

/-- What memory holds after reset with no program: the font at `FONT_BASE`, `INIT_MEM` elsewhere. This is also what
an address the memory list does not list reads as (70_reset_and_hazards.md R155, 20_memory.md R50; log entry 3). -/
def initialByte (a : Nat) : Byte :=
  if fontBase ≤ a ∧ a < fontBase + Config.fontSize then fontTable.getD (a - fontBase) (initMem a) else initMem a

/-- `STRICT_NIBBLE_DECODE`: 5XYn and 9XYn need n = 0 (30_encoding.md R70, D16). -/
@[simp] def strictNibbleDecode : Bool := true

/-- `SHIFT_USES_VY`: 8XY6 and 8XYE shift VY instead of VX (42_alu.md R105, R107, D11). -/
@[simp] def shiftUsesVy : Bool := false

/-- `LDST_INCREMENTS_I`: FX55 and FX65 advance I (43_index_memory.md R116, D12). -/
@[simp] def ldstIncrementsI : Bool := false

/-- `STACK_CAPACITY`: the greatest call-stack depth, `none` for unbounded (10_state.md R27, D20). -/
@[simp] def stackCapacity : Option Nat := none

/-- The two readings of a timer write of 0 (45_timers.md R124, D17). -/
inductive ZeroWrite where
  | noop    -- the write does nothing
  | clear   -- the count becomes 0
  deriving DecidableEq, Repr

/-- `TIMER_ZERO_WRITE` (45_timers.md R124, D17). -/
@[simp] def timerZeroWrite : ZeroWrite := .noop

/-- The readings of "lowest/most-recently-found" (46_keypad.md R133, D18). -/
inductive KeySelect where
  | lowest   -- the lowest DOWN key
  | any      -- some DOWN key, a free choice
  deriving DecidableEq, Repr

/-- `FX0A_SELECT` (46_keypad.md R133, D18). -/
@[simp] def fx0aSelect : KeySelect := .lowest

end Sys2Proof.Params
end

