-- ==== Sys2Proof/Syntax.lean ====
section
/-! DEFINITION. The 34 instructions of the opcode map, one constructor per row (30_encoding.md R68). Operands are
the fields the row's format names (30_encoding.md R64, R66): X and Y register numbers, N a nibble, NN a byte, NNN an
address. Each field's type holds exactly the values its bits can hold, so every term is an instruction. -/

namespace Sys2Proof

inductive Instr where
  | cls                           -- 00E0 clear display
  | ret                           -- 00EE return
  | jp (nnn : Addr)               -- 1NNN jump
  | call (nnn : Addr)             -- 2NNN call
  | seImm (x : Reg) (nn : Byte)   -- 3XNN skip if VX == NN
  | sneImm (x : Reg) (nn : Byte)  -- 4XNN skip if VX != NN
  | seReg (x y : Reg)             -- 5XY0 skip if VX == VY
  | ldImm (x : Reg) (nn : Byte)   -- 6XNN VX := NN
  | addImm (x : Reg) (nn : Byte)  -- 7XNN VX += NN
  | ldReg (x y : Reg)             -- 8XY0 VX := VY
  | orReg (x y : Reg)             -- 8XY1 VX := VX OR VY
  | andReg (x y : Reg)            -- 8XY2 VX := VX AND VY
  | xorReg (x y : Reg)            -- 8XY3 VX := VX XOR VY
  | addReg (x y : Reg)            -- 8XY4 VX += VY, VF = carry
  | sub (x y : Reg)               -- 8XY5 VX -= VY, VF = NOT borrow
  | shr (x y : Reg)               -- 8XY6 shift right, VF = old LSB
  | subn (x y : Reg)              -- 8XY7 VX := VY - VX, VF = NOT borrow
  | shl (x y : Reg)               -- 8XYE shift left, VF = old MSB
  | sneReg (x y : Reg)            -- 9XY0 skip if VX != VY
  | ldI (nnn : Addr)              -- ANNN I := NNN
  | jpV0 (nnn : Addr)             -- BNNN pc := V0 + NNN
  | rnd (x : Reg) (nn : Byte)     -- CXNN VX := random AND NN
  | drw (x y : Reg) (n : Nibble)  -- DXYN draw N rows at (VX, VY)
  | skp (x : Reg)                 -- EX9E skip if key VX DOWN
  | sknp (x : Reg)                -- EXA1 skip if key VX UP
  | ldVxDt (x : Reg)              -- FX07 VX := DT
  | ldVxK (x : Reg)               -- FX0A await key
  | ldDtVx (x : Reg)              -- FX15 DT := VX
  | ldStVx (x : Reg)              -- FX18 ST := VX
  | addI (x : Reg)                -- FX1E I += VX, VF = overflow
  | ldF (x : Reg)                 -- FX29 I := glyph address
  | ldB (x : Reg)                 -- FX33 store BCD digits
  | ldMemVx (x : Reg)             -- FX55 store V0..VX
  | ldVxMem (x : Reg)             -- FX65 load V0..VX
  deriving DecidableEq, Repr

end Sys2Proof
end

