-- ==== Sys2Proof/WellFormed.lean ====
section
/-! DEFINITION. The checks on data a machine is given: an instruction word is one the opcode map knows
(30_encoding.md R68, R71), a layout satisfies the constraints on its parameters (00_scope.md R8), and a program fits
above `PROG_START` (70_reset_and_hazards.md R156). A term of `Instr` needs no check: its operand types bound every
field (30_encoding.md R64, R65). The opcode map stands here as data, read from the table and not from the decoder. -/

namespace Sys2Proof

/-- One row of the opcode map: a word `w` selects it when `w &&& mask = code` (30_encoding.md R68). -/
structure OpcodeRow where
  mnemonic : String
  code : Word
  mask : Word
  deriving DecidableEq, Repr

/-- The mask of 5XY0 and 9XY0: the last nibble counts only under strict decoding (30_encoding.md R70). -/
def nibbleMask : Word := if Params.strictNibbleDecode then 0xF00F else 0xF000

/-- Rows 00E0 to 7XNN of the opcode map (30_encoding.md R68). -/
def opcodeRowsLow : List OpcodeRow :=
  [⟨"CLS", 0x00E0, 0xFFFF⟩, ⟨"RET", 0x00EE, 0xFFFF⟩, ⟨"JP", 0x1000, 0xF000⟩, ⟨"CALL", 0x2000, 0xF000⟩,
   ⟨"SE_IMM", 0x3000, 0xF000⟩, ⟨"SNE_IMM", 0x4000, 0xF000⟩, ⟨"SE_REG", 0x5000, nibbleMask⟩,
   ⟨"LD_IMM", 0x6000, 0xF000⟩, ⟨"ADD_IMM", 0x7000, 0xF000⟩]

/-- Rows 8XY0 to 8XYE of the opcode map (30_encoding.md R68). -/
def opcodeRowsAlu : List OpcodeRow :=
  [⟨"LD_REG", 0x8000, 0xF00F⟩, ⟨"OR", 0x8001, 0xF00F⟩, ⟨"AND", 0x8002, 0xF00F⟩, ⟨"XOR", 0x8003, 0xF00F⟩,
   ⟨"ADD_REG", 0x8004, 0xF00F⟩, ⟨"SUB", 0x8005, 0xF00F⟩, ⟨"SHR", 0x8006, 0xF00F⟩, ⟨"SUBN", 0x8007, 0xF00F⟩,
   ⟨"SHL", 0x800E, 0xF00F⟩]

/-- Rows 9XY0 to EXA1 of the opcode map (30_encoding.md R68). -/
def opcodeRowsMid : List OpcodeRow :=
  [⟨"SNE_REG", 0x9000, nibbleMask⟩, ⟨"LD_I", 0xA000, 0xF000⟩, ⟨"JP_V0", 0xB000, 0xF000⟩, ⟨"RND", 0xC000, 0xF000⟩,
   ⟨"DRW", 0xD000, 0xF000⟩, ⟨"SKP", 0xE09E, 0xF0FF⟩, ⟨"SKNP", 0xE0A1, 0xF0FF⟩]

/-- Rows FX07 to FX65 of the opcode map (30_encoding.md R68). -/
def opcodeRowsF : List OpcodeRow :=
  [⟨"LD_VX_DT", 0xF007, 0xF0FF⟩, ⟨"LD_VX_K", 0xF00A, 0xF0FF⟩, ⟨"LD_DT_VX", 0xF015, 0xF0FF⟩,
   ⟨"LD_ST_VX", 0xF018, 0xF0FF⟩, ⟨"ADD_I", 0xF01E, 0xF0FF⟩, ⟨"LD_F", 0xF029, 0xF0FF⟩, ⟨"LD_B", 0xF033, 0xF0FF⟩,
   ⟨"LD_MEM_VX", 0xF055, 0xF0FF⟩, ⟨"LD_VX_MEM", 0xF065, 0xF0FF⟩]

/-- The complete opcode map, 34 rows (30_encoding.md R68). -/
def opcodeTable : List OpcodeRow := opcodeRowsLow ++ opcodeRowsAlu ++ opcodeRowsMid ++ opcodeRowsF

/-- A word selects a row when `(w & mask) == match` (30_encoding.md R68). -/
def OpcodeRow.selects (r : OpcodeRow) (w : Word) : Bool := w &&& r.mask == r.code

/-- The word is one of the instructions; any other word is unknown (30_encoding.md R71). -/
def wordKnown (w : Word) : Bool := opcodeTable.any fun r => r.selects w

/-- The mnemonic of an instruction's row (30_encoding.md R68). -/
def Instr.mnemonic : Instr → String
  | .cls => "CLS"
  | .ret => "RET"
  | .jp _ => "JP"
  | .call _ => "CALL"
  | .seImm _ _ => "SE_IMM"
  | .sneImm _ _ => "SNE_IMM"
  | .seReg _ _ => "SE_REG"
  | .ldImm _ _ => "LD_IMM"
  | .addImm _ _ => "ADD_IMM"
  | .ldReg _ _ => "LD_REG"
  | .orReg _ _ => "OR"
  | .andReg _ _ => "AND"
  | .xorReg _ _ => "XOR"
  | .addReg _ _ => "ADD_REG"
  | .sub _ _ => "SUB"
  | .shr _ _ => "SHR"
  | .subn _ _ => "SUBN"
  | .shl _ _ => "SHL"
  | .sneReg _ _ => "SNE_REG"
  | .ldI _ => "LD_I"
  | .jpV0 _ => "JP_V0"
  | .rnd _ _ => "RND"
  | .drw _ _ _ => "DRW"
  | .skp _ => "SKP"
  | .sknp _ => "SKNP"
  | .ldVxDt _ => "LD_VX_DT"
  | .ldVxK _ => "LD_VX_K"
  | .ldDtVx _ => "LD_DT_VX"
  | .ldStVx _ => "LD_ST_VX"
  | .addI _ => "ADD_I"
  | .ldF _ => "LD_F"
  | .ldB _ => "LD_B"
  | .ldMemVx _ => "LD_MEM_VX"
  | .ldVxMem _ => "LD_VX_MEM"

/-- The constraints on the layout parameters (00_scope.md R8). -/
def layoutOk (fontBase progStart : Nat) : Bool :=
  fontBase + Config.fontSize ≤ progStart && progStart ≤ 0xFFF

/-- A program of `len` bytes fits above `PROG_START` (70_reset_and_hazards.md R156, D23). -/
def programFits (len : Nat) : Bool := Params.progStart + len ≤ Config.memSize

end Sys2Proof
end

