-- ==== Sys2Proof/Decode.lean ====
section
/-! DEFINITION. The decoder: a total, pure function of the 16-bit word (30_encoding.md R67), in two levels, that
rejects each class of unknown word by name (R71); then the encoder, from the formats of R66. -/

namespace Sys2Proof

/-- Why bytes decode to no instruction (30_encoding.md R71): the six classes of unknown words, and too few bytes. -/
inductive Reject where
  | short         -- fewer than two bytes (30_encoding.md R63)
  | unknown0NNN   -- 0NNN other than 00E0 and 00EE
  | unknown5XYn   -- 5XYn with n not 0
  | unknown8XYn   -- 8XYn with n in 8, 9, A, B, C, D, F
  | unknown9XYn   -- 9XYn with n not 0
  | unknownEXkk   -- EXkk with kk neither 9E nor A1
  | unknownFXkk   -- FXkk with kk none of the nine functions
  deriving DecidableEq, Repr

/-- `op`, bits 15 to 12 (30_encoding.md R64). -/
def opField (w : Word) : Nibble := w.extractLsb' 12 4

/-- `X`, bits 11 to 8, as a register number (30_encoding.md R64). -/
def xField (w : Word) : Reg := Reg.ofNibble (w.extractLsb' 8 4)

/-- `Y`, bits 7 to 4, as a register number (30_encoding.md R64). -/
def yField (w : Word) : Reg := Reg.ofNibble (w.extractLsb' 4 4)

/-- `N`, bits 3 to 0 (30_encoding.md R64). -/
def nField (w : Word) : Nibble := w.extractLsb' 0 4

/-- `NN`, bits 7 to 0 (30_encoding.md R64). -/
def nnField (w : Word) : Byte := w.extractLsb' 0 8

/-- `NNN`, bits 11 to 0 (30_encoding.md R64). -/
def nnnField (w : Word) : Addr := w.extractLsb' 0 12

/-- Family 0: only 00E0 and 00EE are known (30_encoding.md R68, R69). -/
def decode0 (w : Word) : Except Reject Instr :=
  if nnnField w = 0x0E0#12 then .ok .cls
  else if nnnField w = 0x0EE#12 then .ok .ret
  else .error .unknown0NNN

/-- The last nibble of 5XYn and 9XYn is accepted (30_encoding.md R70). -/
def lastNibbleOk (n : Nibble) : Bool := !Params.strictNibbleDecode || n == 0#4

/-- Family 5: 5XY0 (30_encoding.md R70). -/
def decode5 (w : Word) : Except Reject Instr :=
  if lastNibbleOk (nField w) then .ok (.seReg (xField w) (yField w)) else .error .unknown5XYn

/-- Family 8: the nine functions of the low nibble (30_encoding.md R68, 42_alu.md R108). -/
def decode8 (w : Word) : Except Reject Instr :=
  match (nField w).toNat with
  | 0x0 => .ok (.ldReg (xField w) (yField w))
  | 0x1 => .ok (.orReg (xField w) (yField w))
  | 0x2 => .ok (.andReg (xField w) (yField w))
  | 0x3 => .ok (.xorReg (xField w) (yField w))
  | 0x4 => .ok (.addReg (xField w) (yField w))
  | 0x5 => .ok (.sub (xField w) (yField w))
  | 0x6 => .ok (.shr (xField w) (yField w))
  | 0x7 => .ok (.subn (xField w) (yField w))
  | 0xE => .ok (.shl (xField w) (yField w))
  | _ => .error .unknown8XYn

/-- Family 9: 9XY0 (30_encoding.md R70). -/
def decode9 (w : Word) : Except Reject Instr :=
  if lastNibbleOk (nField w) then .ok (.sneReg (xField w) (yField w)) else .error .unknown9XYn

/-- Family E: EX9E and EXA1 (30_encoding.md R68). -/
def decodeE (w : Word) : Except Reject Instr :=
  if nnField w = 0x9E#8 then .ok (.skp (xField w))
  else if nnField w = 0xA1#8 then .ok (.sknp (xField w))
  else .error .unknownEXkk

/-- Family F: the nine functions of the low byte (30_encoding.md R68). -/
def decodeF (w : Word) : Except Reject Instr :=
  if nnField w = 0x07#8 then .ok (.ldVxDt (xField w))
  else if nnField w = 0x0A#8 then .ok (.ldVxK (xField w))
  else if nnField w = 0x15#8 then .ok (.ldDtVx (xField w))
  else if nnField w = 0x18#8 then .ok (.ldStVx (xField w))
  else if nnField w = 0x1E#8 then .ok (.addI (xField w))
  else if nnField w = 0x29#8 then .ok (.ldF (xField w))
  else if nnField w = 0x33#8 then .ok (.ldB (xField w))
  else if nnField w = 0x55#8 then .ok (.ldMemVx (xField w))
  else if nnField w = 0x65#8 then .ok (.ldVxMem (xField w))
  else .error .unknownFXkk

/-- The decoder: the high nibble selects the family, the family reads the rest (30_encoding.md R67, R68). -/
def decode (w : Word) : Except Reject Instr :=
  match (opField w).toNat with
  | 0x0 => decode0 w
  | 0x1 => .ok (.jp (nnnField w))
  | 0x2 => .ok (.call (nnnField w))
  | 0x3 => .ok (.seImm (xField w) (nnField w))
  | 0x4 => .ok (.sneImm (xField w) (nnField w))
  | 0x5 => decode5 w
  | 0x6 => .ok (.ldImm (xField w) (nnField w))
  | 0x7 => .ok (.addImm (xField w) (nnField w))
  | 0x8 => decode8 w
  | 0x9 => decode9 w
  | 0xA => .ok (.ldI (nnnField w))
  | 0xB => .ok (.jpV0 (nnnField w))
  | 0xC => .ok (.rnd (xField w) (nnField w))
  | 0xD => .ok (.drw (xField w) (yField w) (nField w))
  | 0xE => decodeE w
  | _ => decodeF w

/-- The big-endian word of two bytes, the one at the lower address high (20_memory.md R43). -/
def wordOfBytes (hi lo : Byte) : Word := hi ++ lo

/-- Decoding from bytes: two bytes make an instruction and the rest is handed back (30_encoding.md R63). -/
def decodeBytes : List Byte → Except Reject (Instr × List Byte)
  | hi :: lo :: rest =>
    match decode (wordOfBytes hi lo) with
    | .ok i => .ok (i, rest)
    | .error r => .error r
  | _ => .error .short

/-- Format NNN (30_encoding.md R66). -/
def formatNNN (op : Nibble) (nnn : Addr) : Word := op ++ nnn

/-- Formats XNN and XFF (30_encoding.md R66). -/
def formatXNN (op : Nibble) (x : Reg) (nn : Byte) : Word := op ++ x.toNibble ++ nn

/-- Formats XYF and XYN (30_encoding.md R66). -/
def formatXYN (op : Nibble) (x y : Reg) (n : Nibble) : Word := op ++ x.toNibble ++ y.toNibble ++ n

/-- The encoder: the word of each instruction (30_encoding.md R66, R68). -/
def encode : Instr → Word
  | .cls => 0x00E0#16
  | .ret => 0x00EE#16
  | .jp nnn => formatNNN 0x1 nnn
  | .call nnn => formatNNN 0x2 nnn
  | .seImm x nn => formatXNN 0x3 x nn
  | .sneImm x nn => formatXNN 0x4 x nn
  | .seReg x y => formatXYN 0x5 x y 0x0
  | .ldImm x nn => formatXNN 0x6 x nn
  | .addImm x nn => formatXNN 0x7 x nn
  | .ldReg x y => formatXYN 0x8 x y 0x0
  | .orReg x y => formatXYN 0x8 x y 0x1
  | .andReg x y => formatXYN 0x8 x y 0x2
  | .xorReg x y => formatXYN 0x8 x y 0x3
  | .addReg x y => formatXYN 0x8 x y 0x4
  | .sub x y => formatXYN 0x8 x y 0x5
  | .shr x y => formatXYN 0x8 x y 0x6
  | .subn x y => formatXYN 0x8 x y 0x7
  | .shl x y => formatXYN 0x8 x y 0xE
  | .sneReg x y => formatXYN 0x9 x y 0x0
  | .ldI nnn => formatNNN 0xA nnn
  | .jpV0 nnn => formatNNN 0xB nnn
  | .rnd x nn => formatXNN 0xC x nn
  | .drw x y n => formatXYN 0xD x y n
  | .skp x => formatXNN 0xE x 0x9E
  | .sknp x => formatXNN 0xE x 0xA1
  | .ldVxDt x => formatXNN 0xF x 0x07
  | .ldVxK x => formatXNN 0xF x 0x0A
  | .ldDtVx x => formatXNN 0xF x 0x15
  | .ldStVx x => formatXNN 0xF x 0x18
  | .addI x => formatXNN 0xF x 0x1E
  | .ldF x => formatXNN 0xF x 0x29
  | .ldB x => formatXNN 0xF x 0x33
  | .ldMemVx x => formatXNN 0xF x 0x55
  | .ldVxMem x => formatXNN 0xF x 0x65

/-- The two bytes of an instruction, high byte first (30_encoding.md R63, 20_memory.md R43). -/
def encodeBytes (i : Instr) : List Byte := [(encode i).extractLsb' 8 8, (encode i).extractLsb' 0 8]

/-- The two bytes, in memory order, of an instruction numbered as spec/opcode_table.json numbers its bits: one
16-bit word, of which the bits from `nbits` up are 0; the high byte lies at the lower address. -/
def tableWordBytes (nbits w : Nat) : List Byte :=
  let word := w % 2 ^ nbits
  [BitVec.ofNat 8 (word / 256), BitVec.ofNat 8 word]

/-- The instruction the decoder reads from a table word. -/
def decodeTableWord (nbits w : Nat) : Option Instr :=
  match decodeBytes (tableWordBytes nbits w) with
  | .ok (i, _) => some i
  | .error _ => none

end Sys2Proof
end

