-- ==== Sys2Proof/Machine/Flags.lean ====
section
/-! DEFINITION. Every flag computation the spec gives, on the exact integers (10_state.md R35, 42_alu.md R94). The
only flag register is VF; `State.setFlag` writes it. -/

namespace Sys2Proof.Machine

/-- Carry out of bit 7: `a + b > 0xFF` (42_alu.md R103). -/
def addCarry (a b : Byte) : Bool := a.toNat + b.toNat > 0xFF

/-- NOT borrow of `a - b`: `a >= b`, so equal operands do not borrow (42_alu.md R104, R106, D14). -/
def notBorrow (a b : Byte) : Bool := a.toNat ≥ b.toNat

/-- The bit a right shift drops: bit 0 (42_alu.md R105). -/
def oldLsb (a : Byte) : Bool := a.getLsbD 0

/-- The bit a left shift drops: bit 7 (42_alu.md R107). -/
def oldMsb (a : Byte) : Bool := a.getLsbD 7

/-- "overflow past 0xFFF" of FX1E (43_index_memory.md R111). -/
def indexOverflow (i : Addr) (b : Byte) : Bool := i.toNat + b.toNat > 0xFFF

end Sys2Proof.Machine
end

