-- ==== Sys2Proof/Machine/State.lean ====
section
/-! DEFINITION. The state of the core as plain data (10_state.md), its reset value (10_state.md R39,
70_reset_and_hazards.md R155), the core's outputs (60_exceptions.md R142), and the reasons a step or a construction can
stop. -/

namespace Sys2Proof.Machine

/-- The two states of the CPU (10_state.md R32). The KeyState "reading" flag is this same bit (90_conflicts.md C7). -/
inductive Mode where
  | running           -- RUNNING
  | blockedForInput   -- BLOCKED_FOR_INPUT
  deriving DecidableEq, Repr

/-- The state of one key (10_state.md R30). -/
inductive KeyState where
  | up     -- UP
  | down   -- DOWN
  deriving DecidableEq, Repr

/-- One cell of the frame (10_state.md R31). -/
inductive Cell where
  | off   -- OFF
  | on    -- ON
  deriving DecidableEq, Repr

/-- The 64 by 32 frame, indexed as the spec writes it: `frame[x][y]` (10_state.md R31). -/
abbrev Frame := Vector (Vector Cell 32) 64

/-- Where the events come from once the schedule is used up: the model's own (60_exceptions.md R142; log entry 2). -/
inductive ScheduleEnd where
  | stepsOnly   -- `Step` events only, as in the programs of 95_test_vectors.md
  | anyEvent    -- any events, for ever: the free sequence `Config.hostEvent`
  deriving DecidableEq, Repr

/-- The events the core emits (60_exceptions.md R139, R142, R149). -/
inductive Output where
  | diag (w : Word)   -- an unknown word was executed
  | start             -- ST went from 0 to positive: audio start()
  | stop              -- ST went from positive to 0: audio stop()
  deriving DecidableEq, Repr

/-- Everything the spec gives the core (the tuple of 10_state.md), the outputs it has emitted, and four fields of the
model's own: `draws` (log entry 1), `schedule`, `scheduleEnd` and `inputs` (log entry 2). -/
structure State where
  /-- V0 to VF (10_state.md R16). -/
  v : Vector Byte 16
  /-- The program counter (10_state.md R22). -/
  pc : Addr
  /-- The index register I (10_state.md R25). -/
  index : Addr
  /-- The call stack, top first (10_state.md R26). -/
  stack : List Word
  /-- The delay timer's count (10_state.md R28). -/
  dt : Byte
  /-- The sound timer's count (10_state.md R28). -/
  st : Byte
  /-- The key table (10_state.md R30). -/
  keys : Vector KeyState 16
  /-- The framebuffer (10_state.md R31). -/
  frame : Frame
  /-- RUNNING or BLOCKED_FOR_INPUT (10_state.md R32). -/
  mode : Mode
  /-- `wait_reg`, the register FX0A will fill (10_state.md R33). -/
  waitReg : Reg
  /-- `frame_updated` (10_state.md R34). -/
  frameUpdated : Bool
  /-- Memory, in canonical form (20_memory.md R40; log entry 3). -/
  mem : List Host.Cell
  /-- The events emitted so far, newest first (60_exceptions.md R139, R149). -/
  trace : List Output
  /-- The model's own: how many free values have been taken (42_alu.md R109; log entry 1). -/
  draws : Nat
  /-- The model's own: the host's events still to be applied, oldest first (60_exceptions.md R142; log entry 2). -/
  schedule : List Event
  /-- The model's own: what follows the schedule (60_exceptions.md R142, 40_cycle.md R85; log entry 2). -/
  scheduleEnd : ScheduleEnd
  /-- The model's own: how many events of the free sequence have been taken (60_exceptions.md R142; log entry 2). -/
  inputs : Nat
  deriving DecidableEq, Repr

/-- Why a step stops with a fault. The hardware has no fault (60_exceptions.md R134). -/
inductive Fault where
  /-- Raised by CALL when `STACK_CAPACITY` is finite and the stack is full (10_state.md R27: "must treat a push onto a
  full stack as a fault of the model"). This hardware's capacity is `none`, so no step of it raises this. Safe: it
  only stops a run. -/
  | stackOverflow
  deriving DecidableEq, Repr

/-- Why no next state is given. -/
inductive Refusal where
  /-- Answered only by an arm of `exec` whose instruction has no meaning yet; no arm does. Safe: it only stops a run. -/
  | notModelled (mnemonic : String)
  /-- Answered only by `construct`: the loader reported failure, or the program does not fit; "the CPU refuses to be
  created" (70_reset_and_hazards.md R156). No step answers it. Safe: no core exists. -/
  | loadFailure
  deriving DecidableEq, Repr

/-- The state after construction with the empty program (10_state.md R39, 70_reset_and_hazards.md R155, R156):
memory lists nothing, so it reads as the font and `INIT_MEM`. `draws`, `schedule`, `scheduleEnd` and
`inputs` are the model's own: after reset the host may do anything, for ever. -/
def State.reset : State where
  v := Vector.replicate 16 0
  pc := BitVec.ofNat 12 Params.progStart
  index := 0
  stack := []
  dt := 0
  st := 0
  keys := Vector.replicate 16 .up
  frame := Vector.replicate 64 (Vector.replicate 32 .off)
  mode := .running
  waitReg := 0
  frameUpdated := false
  mem := []
  trace := []
  draws := 0
  schedule := []
  scheduleEnd := .anyEvent
  inputs := 0

end Sys2Proof.Machine
end

