-- ==== Sys2Proof/Machine/Ops.lean ====
section
/-! DEFINITION. The named operations over the state: the primitives of 00_scope.md R11 over registers, the pc, I,
memory, the call stack, the timers, the keys and the frame. The core has no exception, trap entry or return from one
(60_exceptions.md R134 to R137), so there is no operation for them. -/

namespace Sys2Proof.Machine

/-! ### Memory as a list of cells -/

/-- The byte at address `a` of a memory list: the listed byte, or what an unlisted address reads as. -/
def Memory.read (m : List Host.Cell) (a : Nat) : Byte :=
  match m.find? (fun c => c.1 == a) with
  | some c => c.2
  | none => Params.initialByte a

/-- Insert a cell before the first listed cell of a higher address. -/
def Memory.insert (c : Host.Cell) : List Host.Cell → List Host.Cell
  | [] => [c]
  | d :: m => if c.1 < d.1 then c :: d :: m else d :: Memory.insert c m

/-- Write byte `b` at address `a`, keeping the canonical form: writing what an unlisted address reads as removes
the entry. -/
def Memory.write (m : List Host.Cell) (a : Nat) (b : Byte) : List Host.Cell :=
  let rest := m.filter (fun c => c.1 != a)
  if b = Params.initialByte a then rest else Memory.insert (a, b) rest

/-- The canonical form: addresses strictly rising, all inside the 4096 bytes of 20_memory.md R40, and no entry equal
to what an unlisted address reads as. -/
abbrev Memory.wf (m : List Host.Cell) : Prop :=
  m.Pairwise (fun c d => c.1 < d.1) ∧ ∀ c ∈ m, c.1 < Config.memSize ∧ c.2 ≠ Params.initialByte c.1

/-! ### General registers, pc and index register -/

/-- `V[i]`, a read of a general register (00_scope.md R11, 10_state.md R16). -/
def State.reg (s : State) (r : Reg) : Byte := s.v[r]

/-- `V[i] <- b` (00_scope.md R11, 10_state.md R17). No register is hardwired (R16). -/
def State.setReg (s : State) (r : Reg) (b : Byte) : State := { s with v := s.v.set r b }

/-- `V[F] <- bool(c)`, the flag write (10_state.md R35, 00_scope.md R10). -/
def State.setFlag (s : State) (c : Bool) : State := s.setReg Reg.VF (if c then 1 else 0)

/-- `pc <- t`, on 12 bits (10_state.md R22). -/
def State.setPc (s : State) (t : Addr) : State := { s with pc := t }

/-- The default advance `pc <- pc + 2`, wrapping at 12 bits (40_cycle.md R79). -/
def State.advance (s : State) : State := s.setPc (s.pc + 2)

/-- `Skip(c)`: `pc <- (c ? pc + 4 : pc + 2)` (40_cycle.md R81). -/
def State.skip (s : State) (c : Bool) : State := s.setPc (s.pc + if c then 4 else 2)

/-- `I <- a`, on 12 bits (10_state.md R25). -/
def State.setIndex (s : State) (a : Addr) : State := { s with index := a }

/-! ### Memory -/

/-- `MemRead(a, 1)`: the byte at `a & 0xFFF` (20_memory.md R41, R42). -/
def State.readByte (s : State) (a : Nat) : Byte := Memory.read s.mem (a % Config.memSize)

/-- `MemWrite(a, 1, b)`: store at `a & 0xFFF` (20_memory.md R41, R42). -/
def State.writeByte (s : State) (a : Nat) (b : Byte) : State :=
  { s with mem := Memory.write s.mem (a % Config.memSize) b }

/-- `MemRead(a, 2)`: big-endian, each byte's address masked on its own (20_memory.md R43). -/
def State.readWord (s : State) (a : Nat) : Word := s.readByte a ++ s.readByte (a + 1)

/-- `MemWrite(a, 2, w)`: big-endian; no instruction uses it (20_memory.md R44). -/
def State.writeWord (s : State) (a : Nat) (w : Word) : State :=
  (s.writeByte a (w.extractLsb' 8 8)).writeByte (a + 1) (w.extractLsb' 0 8)

/-- The `n` bytes at `a`, `a + 1`, …: `getSprite(a, n)` (20_memory.md R55). -/
def State.readBytes (s : State) (a n : Nat) : List Byte := (List.range n).map fun k => s.readByte (a + k)

/-- Byte writes at `a`, `a + 1`, … in this order, each address masked on its own (20_memory.md R47). -/
def State.writeBytes (s : State) (a : Nat) : List Byte → State
  | [] => s
  | b :: bs => (s.writeByte a b).writeBytes (a + 1) bs

/-- `Fetch(pc)` (00_scope.md R11, 40_cycle.md R77). -/
def State.fetch (s : State) : Word := s.readWord s.pc.toNat

/-! ### Call stack -/

/-- Replace the call stack. -/
def State.setStack (s : State) (ws : List Word) : State := { s with stack := ws }

/-- `Push(w)`; `none` only when `STACK_CAPACITY` is finite and reached (10_state.md R26, R27). -/
def State.push (s : State) (w : Word) : Option State :=
  match Params.stackCapacity with
  | none => some (s.setStack (w :: s.stack))
  | some n => if s.stack.length < n then some (s.setStack (w :: s.stack)) else none

/-- `Pop()`: the top entry and the state without it, `none` when the stack is empty (10_state.md R26). -/
def State.pop (s : State) : Option (Word × State) :=
  match s.stack with
  | [] => none
  | w :: rest => some (w, s.setStack rest)

/-- `peek`: the top entry, left where it is; `none` when the stack is empty (10_state.md R26). -/
def State.peekStack (s : State) : Option Word := s.stack.head?

/-- `clear`: no entry is left (10_state.md R26). No instruction uses it. -/
def State.clearStack (s : State) : State := s.setStack []

/-- `isEmpty` of the call stack (10_state.md R26). -/
def State.stackIsEmpty (s : State) : Bool := s.stack.isEmpty

/-- `size` of the call stack (10_state.md R26). -/
def State.stackSize (s : State) : Nat := s.stack.length

/-! ### Outputs and free values -/

/-- Emit one event (60_exceptions.md R139, R149). -/
def State.emit (s : State) (o : Output) : State := { s with trace := o :: s.trace }

/-- `RandomByte()`: the next free draw (00_scope.md R11, 42_alu.md R109; log entry 1). -/
def State.randomByte (s : State) : Byte := Config.randomByte s.draws

/-- One free value has been taken (log entry 1). -/
def State.countDraw (s : State) : State := { s with draws := s.draws + 1 }

/-! ### Timers -/

/-- The two timers (10_state.md R28). -/
inductive Timer where
  | delay
  | sound
  deriving DecidableEq, Repr

/-- A timer's count (10_state.md R28). -/
def State.count (s : State) : Timer → Byte
  | .delay => s.dt
  | .sound => s.st

/-- A write of a timer's count, and nothing else. -/
def State.setCount (s : State) (t : Timer) (n : Byte) : State :=
  match t with
  | .delay => { s with dt := n }
  | .sound => { s with st := n }

/-- The audio edge of a timer: the delay timer "is passive" and has none (60_exceptions.md R149). -/
def State.emitEdge (s : State) (t : Timer) (o : Output) : State :=
  match t with
  | .delay => s
  | .sound => s.emit o

/-- `SetTimer(T, n)` (45_timers.md R124). `start()` and `stop()` are the sound timer's edges (60_exceptions.md R149). -/
def State.setTimer (s : State) (t : Timer) (n : Byte) : State :=
  if n = 0 then
    match Params.timerZeroWrite with
    | .noop => s
    | .clear => if s.count t = 0 then s else (s.setCount t 0).emitEdge t .stop
  else if s.count t = 0 then (s.setCount t n).emitEdge t .start
  else s.setCount t n

/-- `Tick(T)` (60_exceptions.md R147): count down, `stop()` when the sound timer reaches 0, inert at 0. -/
def State.tick (s : State) (t : Timer) : State :=
  if s.count t = 0 then s
  else if s.count t = 1 then (s.setCount t 0).emitEdge t .stop
  else s.setCount t (s.count t - 1)

/-- The output level `audible` = (ST > 0) (10_state.md R29). -/
def State.audible (s : State) : Bool := s.st != 0

/-! ### Keypad -/

/-- `stateForKey(k)` (10_state.md R30). -/
def State.key (s : State) (k : KeyCode) : KeyState := s.keys[k]

/-- `press(k)` and `release(k)` (10_state.md R30, 60_exceptions.md R143). -/
def State.setKey (s : State) (k : KeyCode) (c : KeyState) : State := { s with keys := s.keys.set k c }

/-- `ClearKeys()`: every key UP (10_state.md R30, 46_keypad.md R131). -/
def State.clearKeys (s : State) : State := { s with keys := Vector.replicate 16 .up }

/-- `KeyDown(b)`: a value above 0xF names no key and reads as UP (46_keypad.md R128). -/
def State.keyDown (s : State) (b : Byte) : Bool :=
  if h : b.toNat < 16 then s.key ⟨b.toNat, h⟩ == .down else false

/-- The DOWN keys, lowest first: the set `D` of 46_keypad.md R132. -/
def State.downKeys (s : State) : List KeyCode := (List.finRange 16).filter fun k => s.key k == .down

/-! ### Mode, wait register and display flag -/

/-- Enter RUNNING or BLOCKED_FOR_INPUT (10_state.md R32). -/
def State.setMode (s : State) (m : Mode) : State := { s with mode := m }

/-- Latch the register FX0A will fill (10_state.md R33). -/
def State.setWaitReg (s : State) (r : Reg) : State := { s with waitReg := r }

/-- Write `frame_updated` (10_state.md R34). -/
def State.setFrameUpdated (s : State) (b : Bool) : State := { s with frameUpdated := b }

/-! ### Framebuffer -/

/-- The other value of a cell (44_display.md R117). -/
def Cell.flip : Cell → Cell
  | .off => .on
  | .on => .off

/-- One cell; OFF outside the grid (60_exceptions.md R145). -/
def Frame.get (f : Frame) (x y : Nat) : Cell :=
  if h : x < 64 ∧ y < 32 then (f[x]'h.1)[y]'h.2 else .off

/-- Write one cell; nothing outside the grid. -/
def Frame.put (f : Frame) (x y : Nat) (c : Cell) : Frame :=
  if h : x < 64 ∧ y < 32 then f.set x ((f[x]'h.1).set y c h.2) h.1 else f

/-- `Toggle(x, y)`: the new frame, and whether the cell was turned off (44_display.md R117). -/
def Frame.toggle (f : Frame) (x y : Nat) : Frame × Bool :=
  if x < 64 ∧ y < 32 then (f.put x y (f.get x y).flip, f.get x y == .on) else (f, false)

/-- Bit (x, y) of a sprite, for x at most 7: bit 7 - x of byte y (20_memory.md R55). -/
def spriteBit (rows : List Byte) (x y : Nat) : Bool := (rows.getD y 0).getLsbD (7 - x)

/-- The cells a sprite's set bits name, row by row, with its corner at (x, y) (44_display.md R120). -/
def spriteCells (rows : List Byte) (x y : Nat) : List (Nat × Nat) :=
  (List.range rows.length).flatMap fun line =>
    ((List.range 8).filter fun col => spriteBit rows col line).map fun col => (x + col, y + line)

/-- Toggle the cells of a list in order; the flag says whether any of them was turned off. -/
def Frame.toggleAll (f : Frame) : List (Nat × Nat) → Frame × Bool
  | [] => (f, false)
  | c :: cs =>
    let one := f.toggle c.1 c.2
    let more := one.1.toggleAll cs
    (more.1, one.2 || more.2)

/-- `DrawSprite(s, x, y)`: toggle the cell of every set bit, clipped at the edges; the flag is the collision
(44_display.md R120, R121). -/
def Frame.drawSprite (f : Frame) (rows : List Byte) (x y : Nat) : Frame × Bool :=
  f.toggleAll (spriteCells rows x y)

/-- `FrameRead(x, y)`, the read port (60_exceptions.md R145). -/
def State.frameRead (s : State) (x y : Nat) : Cell := s.frame.get x y

/-- Replace the frame. -/
def State.setFrame (s : State) (f : Frame) : State := { s with frame := f }

/-- `ClearFrame()`: every cell OFF (44_display.md R119). -/
def State.clearFrame (s : State) : State := s.setFrame (Vector.replicate 64 (Vector.replicate 32 .off))

end Sys2Proof.Machine
end

