-- ==== Sys2Proof/Machine/Operands.lean ====
section
/-! DEFINITION. Every operand form the spec gives beyond a plain register or immediate: the source of a shift, the
indexed jump target, the glyph address, the register run V0 to VX, the BCD digits, and what FX55 and FX65 leave in I.
Immediates are zero-extended (30_encoding.md R65), which the types of the fields already say. -/

namespace Sys2Proof.Machine

/-- The shifted operand: VX, or VY when `SHIFT_USES_VY` (42_alu.md R105, R107, D11). -/
def shiftSource (x y : Reg) (s : State) : Byte := s.reg (if Params.shiftUsesVy then y else x)

/-- The return address CALL pushes: `(pc + 2) & 0xFFF`, as a 16-bit entry (41_flow.md R88, D21). -/
def returnAddress (s : State) : Word := (s.pc + 2).setWidth 16

/-- The target of BNNN: `(V0 + NNN) & 0xFFF` (41_flow.md R93). -/
def indexedTarget (nnn : Addr) (s : State) : Addr := (s.reg 0).setWidth 12 + nnn

/-- `(I + VX) & 0xFFF` (43_index_memory.md R111). -/
def indexPlus (b : Byte) (s : State) : Addr := s.index + b.setWidth 12

/-- The glyph address: `FONT_BASE + 5 * (b & 0xF)` (43_index_memory.md R112). -/
def glyphAddress (b : Byte) : Addr := BitVec.ofNat 12 (Params.fontBase + Config.glyphBytes * (b.toNat % 16))

/-- The decimal digits of a byte: hundreds, tens, ones (43_index_memory.md R113). -/
def bcdDigits (b : Byte) : List Byte :=
  [BitVec.ofNat 8 (b.toNat / 100), BitVec.ofNat 8 (b.toNat / 10 % 10), BitVec.ofNat 8 (b.toNat % 10)]

/-- The register numbers 0 to X in rising order (43_index_memory.md R114, R115). -/
def regsUpTo (x : Reg) : List Reg := (List.finRange 16).filter fun k => k.val ≤ x.val

/-- `V[k] <- MemRead(I + k, 1)` for each register `k` of a list in order (43_index_memory.md R115). -/
def State.loadRegs (s : State) : List Reg → State
  | [] => s
  | k :: ks => (s.setReg k (s.readByte (s.index.toNat + k.val))).loadRegs ks

/-- I after FX55 and FX65: advanced by X + 1 only when `LDST_INCREMENTS_I` (43_index_memory.md R116, D12). -/
def State.blockIndex (s : State) (x : Reg) : State :=
  if Params.ldstIncrementsI then s.setIndex (s.index + BitVec.ofNat 12 (x.val + 1)) else s

/-- `Select(D)` for a non-empty list of DOWN keys, lowest first: the lowest, or a free choice of them when
`FX0A_SELECT = any` (46_keypad.md R133, D18). -/
def selectKey (draws : Nat) (k : KeyCode) (ks : List KeyCode) : KeyCode :=
  match Params.fx0aSelect with
  | .lowest => k
  | .any => (k :: ks).getD (Config.anyKey draws % (ks.length + 1)) k

end Sys2Proof.Machine
end

