-- ==== Sys2Proof/Machine/Alu.lean ====
section
/-! DEFINITION. Register loads and arithmetic (42_alu.md). Operands are read first, VX is written, then VF, so that
with X = F the flag is what stays (R96, D13); every instruction ends with the default advance (40_cycle.md R79). -/

namespace Sys2Proof.Machine

/-- The common shape of 6XNN to 8XY3: write one register and advance. -/
def State.loadAndAdvance (s : State) (x : Reg) (b : Byte) : State := (s.setReg x b).advance

/-- The common shape of 8XY4 to 8XYE: write VX, then VF, and advance (42_alu.md R96). -/
def State.resultAndFlag (s : State) (x : Reg) (b : Byte) (flag : Bool) : State :=
  ((s.setReg x b).setFlag flag).advance

/-- LD_IMM (42_alu.md R97). -/
def execLdImm (x : Reg) (nn : Byte) (s : State) : Host.Outcome State Fault Refusal :=
  .next (s.loadAndAdvance x nn)

/-- ADD_IMM (42_alu.md R98): wraps, writes no carry. -/
def execAddImm (x : Reg) (nn : Byte) (s : State) : Host.Outcome State Fault Refusal :=
  .next (s.loadAndAdvance x (s.reg x + nn))

/-- LD_REG (42_alu.md R99). -/
def execLdReg (x y : Reg) (s : State) : Host.Outcome State Fault Refusal :=
  .next (s.loadAndAdvance x (s.reg y))

/-- OR (42_alu.md R100): VF is not written (D15). -/
def execOrReg (x y : Reg) (s : State) : Host.Outcome State Fault Refusal :=
  .next (s.loadAndAdvance x (s.reg x ||| s.reg y))

/-- AND (42_alu.md R101): VF is not written (D15). -/
def execAndReg (x y : Reg) (s : State) : Host.Outcome State Fault Refusal :=
  .next (s.loadAndAdvance x (s.reg x &&& s.reg y))

/-- XOR (42_alu.md R102): VF is not written (D15). -/
def execXorReg (x y : Reg) (s : State) : Host.Outcome State Fault Refusal :=
  .next (s.loadAndAdvance x (s.reg x ^^^ s.reg y))

/-- ADD_REG (42_alu.md R103). -/
def execAddReg (x y : Reg) (s : State) : Host.Outcome State Fault Refusal :=
  .next (s.resultAndFlag x (s.reg x + s.reg y) (addCarry (s.reg x) (s.reg y)))

/-- SUB (42_alu.md R104): VX - VY. -/
def execSub (x y : Reg) (s : State) : Host.Outcome State Fault Refusal :=
  .next (s.resultAndFlag x (s.reg x - s.reg y) (notBorrow (s.reg x) (s.reg y)))

/-- SHR (42_alu.md R105). -/
def execShr (x y : Reg) (s : State) : Host.Outcome State Fault Refusal :=
  .next (s.resultAndFlag x (shiftSource x y s >>> 1) (oldLsb (shiftSource x y s)))

/-- SUBN (42_alu.md R106): VY - VX. -/
def execSubn (x y : Reg) (s : State) : Host.Outcome State Fault Refusal :=
  .next (s.resultAndFlag x (s.reg y - s.reg x) (notBorrow (s.reg y) (s.reg x)))

/-- SHL (42_alu.md R107). -/
def execShl (x y : Reg) (s : State) : Host.Outcome State Fault Refusal :=
  .next (s.resultAndFlag x (shiftSource x y s <<< 1) (oldMsb (shiftSource x y s)))

/-- RND (42_alu.md R109): a free draw AND NN (log entry 1). -/
def execRnd (x : Reg) (nn : Byte) (s : State) : Host.Outcome State Fault Refusal :=
  .next (s.countDraw.loadAndAdvance x (s.randomByte &&& nn))

end Sys2Proof.Machine
end

