-- ==== Sys2Proof/Machine/Display.lean ====
section
/-! DEFINITION. The two display instructions (44_display.md). Both set `frame_updated`, whether or not a cell changes
(10_state.md R34, D22). -/

namespace Sys2Proof.Machine

/-- CLS (44_display.md R122): VF keeps its value. -/
def execCls (s : State) : Host.Outcome State Fault Refusal :=
  .next (s.clearFrame.setFrameUpdated true).advance

/-- What DRW draws: the frame and the collision, from the old VX, VY and I (44_display.md R123, 20_memory.md R55). -/
def drawResult (x y : Reg) (n : Nibble) (s : State) : Frame × Bool :=
  s.frame.drawSprite (s.readBytes s.index.toNat n.toNat) (s.reg x).toNat (s.reg y).toNat

/-- DRW (44_display.md R123): VF = collision. -/
def execDrw (x y : Reg) (n : Nibble) (s : State) : Host.Outcome State Fault Refusal :=
  .next (((s.setFrame (drawResult x y n s).1).setFlag (drawResult x y n s).2).setFrameUpdated true).advance

end Sys2Proof.Machine
end

