-- ==== Sys2Proof/Machine/Flow.lean ====
section
/-! DEFINITION. Control transfer and skips (41_flow.md). Each sets the pc itself (40_cycle.md R80); `s.pc` is the
address of the instruction (R78). -/

namespace Sys2Proof.Machine

/-- RET (41_flow.md R86): pop to pc; an empty stack leaves the pc, and everything else, as it was. -/
def execRet (s : State) : Host.Outcome State Fault Refusal :=
  match s.pop with
  | none => .next s
  | some (a, t) => .next (t.setPc (a.setWidth 12))

/-- JP (41_flow.md R87). -/
def execJp (nnn : Addr) (s : State) : Host.Outcome State Fault Refusal := .next (s.setPc nnn)

/-- CALL (41_flow.md R88): push the return address, jump. -/
def execCall (nnn : Addr) (s : State) : Host.Outcome State Fault Refusal :=
  match s.push (returnAddress s) with
  | some t => .next (t.setPc nnn)
  | none => .fault .stackOverflow

/-- SE_IMM (41_flow.md R89). -/
def execSeImm (x : Reg) (nn : Byte) (s : State) : Host.Outcome State Fault Refusal :=
  .next (s.skip (s.reg x == nn))

/-- SNE_IMM (41_flow.md R90). -/
def execSneImm (x : Reg) (nn : Byte) (s : State) : Host.Outcome State Fault Refusal :=
  .next (s.skip (s.reg x != nn))

/-- SE_REG (41_flow.md R91). -/
def execSeReg (x y : Reg) (s : State) : Host.Outcome State Fault Refusal :=
  .next (s.skip (s.reg x == s.reg y))

/-- SNE_REG (41_flow.md R92). -/
def execSneReg (x y : Reg) (s : State) : Host.Outcome State Fault Refusal :=
  .next (s.skip (s.reg x != s.reg y))

/-- JP_V0 (41_flow.md R93). -/
def execJpV0 (nnn : Addr) (s : State) : Host.Outcome State Fault Refusal :=
  .next (s.setPc (indexedTarget nnn s))

end Sys2Proof.Machine
end

