-- ==== Sys2Proof/Machine/Index.lean ====
section
/-! DEFINITION. Index register and memory transfer (43_index_memory.md). The address of byte k is I + k, masked by the
memory access itself (20_memory.md R41); every instruction ends with the default advance (40_cycle.md R79). -/

namespace Sys2Proof.Machine

/-- LD_I (43_index_memory.md R110). -/
def execLdI (nnn : Addr) (s : State) : Host.Outcome State Fault Refusal := .next (s.setIndex nnn).advance

/-- ADD_I (43_index_memory.md R111): VF is written in both cases (D4). -/
def execAddI (x : Reg) (s : State) : Host.Outcome State Fault Refusal :=
  .next ((s.setIndex (indexPlus (s.reg x) s)).setFlag (indexOverflow s.index (s.reg x))).advance

/-- LD_F (43_index_memory.md R112). -/
def execLdF (x : Reg) (s : State) : Host.Outcome State Fault Refusal :=
  .next (s.setIndex (glyphAddress (s.reg x))).advance

/-- LD_B (43_index_memory.md R113). -/
def execLdB (x : Reg) (s : State) : Host.Outcome State Fault Refusal :=
  .next (s.writeBytes s.index.toNat (bcdDigits (s.reg x))).advance

/-- LD_MEM_VX (43_index_memory.md R114, R116). -/
def execLdMemVx (x : Reg) (s : State) : Host.Outcome State Fault Refusal :=
  .next ((s.writeBytes s.index.toNat ((regsUpTo x).map s.reg)).blockIndex x).advance

/-- LD_VX_MEM (43_index_memory.md R115, R116). -/
def execLdVxMem (x : Reg) (s : State) : Host.Outcome State Fault Refusal :=
  .next ((s.loadRegs (regsUpTo x)).blockIndex x).advance

end Sys2Proof.Machine
end

