-- ==== Sys2Proof/Machine/Keypad.lean ====
section
/-! DEFINITION. The keypad instructions and the step that completes FX0A (46_keypad.md). -/

namespace Sys2Proof.Machine

/-- SKP (46_keypad.md R129). -/
def execSkp (x : Reg) (s : State) : Host.Outcome State Fault Refusal := .next (s.skip (s.keyDown (s.reg x)))

/-- SKNP (46_keypad.md R130). -/
def execSknp (x : Reg) (s : State) : Host.Outcome State Fault Refusal := .next (s.skip (!s.keyDown (s.reg x)))

/-- LD_VX_K, the entry step (46_keypad.md R131): the pc stays on this instruction. -/
def execLdVxK (x : Reg) (s : State) : Host.Outcome State Fault Refusal :=
  .next ((s.clearKeys.setWaitReg x).setMode .blockedForInput)

/-- The free value a key choice takes is counted only when the choice is free (46_keypad.md R133; log entry 4). -/
def State.countChoice (s : State) : State :=
  match Params.fx0aSelect with
  | .lowest => s
  | .any => s.countDraw

/-- The BLOCKED_FOR_INPUT step (46_keypad.md R132): nothing while every key is UP; otherwise capture a DOWN key, leave
it DOWN, return to RUNNING and advance past the FX0A. -/
def blockedStep (s : State) : State :=
  match s.downKeys with
  | [] => s
  | k :: ks =>
    ((s.countChoice.setReg s.waitReg (BitVec.ofNat 8 (selectKey s.draws k ks).val)).setMode .running).advance

end Sys2Proof.Machine
end

