-- ==== Sys2Proof/Machine/Timers.lean ====
section
/-! DEFINITION. The three timer instructions (45_timers.md). The countdown is an event of the host: `State.tick`. -/

namespace Sys2Proof.Machine

/-- LD_VX_DT (45_timers.md R125). -/
def execLdVxDt (x : Reg) (s : State) : Host.Outcome State Fault Refusal := .next (s.setReg x s.dt).advance

/-- LD_DT_VX (45_timers.md R126, R124). -/
def execLdDtVx (x : Reg) (s : State) : Host.Outcome State Fault Refusal :=
  .next (s.setTimer .delay (s.reg x)).advance

/-- LD_ST_VX (45_timers.md R127, R124). -/
def execLdStVx (x : Reg) (s : State) : Host.Outcome State Fault Refusal :=
  .next (s.setTimer .sound (s.reg x)).advance

end Sys2Proof.Machine
end

