-- ==== Sys2Proof/Machine/Cycle.lean ====
section
/-! DEFINITION. The fetch-decode-execute cycle (40_cycle.md), the host's input events (60_exceptions.md R142) and
construction with a program (70_reset_and_hazards.md R155, R156). -/

namespace Sys2Proof.Machine

/-- An unknown word (40_cycle.md R82): report it and advance; nothing else changes. -/
def execUnknown (w : Word) (s : State) : State := (s.emit (.diag w)).advance

/-- The RUNNING step (40_cycle.md R77): fetch, decode, execute. -/
def runningStep (s : State) : Host.Outcome State Fault Refusal :=
  match decode s.fetch with
  | .ok i => exec i s
  | .error _ => .next (execUnknown s.fetch s)

/-- One CPU step (40_cycle.md R76): the mode chooses; a blocked step fetches and decodes nothing. -/
def cpuStep (s : State) : Host.Outcome State Fault Refusal :=
  match s.mode with
  | .running => runningStep s
  | .blockedForInput => .next (blockedStep s)

/-- One input event of the host, applied atomically and alone (60_exceptions.md R142, R143, R144, R147). -/
def applyEvent (e : Event) (s : State) : Host.Outcome State Fault Refusal :=
  match e with
  | .step => cpuStep s
  | .delayTick => .next (s.tick .delay)
  | .soundTick => .next (s.tick .sound)
  | .press k => .next (s.setKey k .down)
  | .release k => .next (s.setKey k .up)
  | .ack => .next (s.setFrameUpdated false)

/-- The schedule is replaced; nothing else changes (log entry 2). -/
def State.setSchedule (s : State) (es : List Event) : State := { s with schedule := es }

/-- What follows the schedule is replaced; nothing else changes (log entry 2). -/
def State.setScheduleEnd (s : State) (e : ScheduleEnd) : State := { s with scheduleEnd := e }

/-- One event of the free sequence has been taken (log entry 2). -/
def State.countInput (s : State) : State := { s with inputs := s.inputs + 1 }

/-- The next event of the run: the head of the schedule; once it is used up, a CPU step or the next event of the free
sequence (60_exceptions.md R142, 40_cycle.md R85; log entry 2). -/
def State.nextInput (s : State) : Event :=
  match s.schedule with
  | e :: _ => e
  | [] =>
    match s.scheduleEnd with
    | .stepsOnly => .step
    | .anyEvent => Config.hostEvent s.inputs

/-- The state with that event taken, before it is applied: only the model's own fields change (log entry 2). -/
def State.takeInput (s : State) : State :=
  match s.schedule with
  | _ :: es => s.setSchedule es
  | [] =>
    match s.scheduleEnd with
    | .stepsOnly => s
    | .anyEvent => s.countInput

/-- The next event of the run is taken and applied, alone (60_exceptions.md R142; log entry 2). -/
def nextEvent (s : State) : Host.Outcome State Fault Refusal := applyEvent s.nextInput s.takeInput

/-- Construction with what the loader supplies, `none` when it reports failure (70_reset_and_hazards.md R155, R156):
a program that does not fit builds no core; otherwise byte k of it is stored at `PROG_START + k`. -/
def construct (program : Option (List Byte)) : Host.Outcome State Fault Refusal :=
  match program with
  | none => .refused .loadFailure
  | some p =>
    if programFits p.length then .next (State.reset.writeBytes Params.progStart p) else .refused .loadFailure

end Sys2Proof.Machine
end

