-- ==== Sys2Proof/Machine/Step.lean ====
section
/-! DEFINITION. One step of the machine, and the placing of an instruction word where the next step fetches. -/

namespace Sys2Proof.Machine

/-- One step: the next event of the run (60_exceptions.md R142; log entry 2). -/
def step (s : State) : Host.Outcome State Fault Refusal := nextEvent s

/-- `s` with the instruction whose table bits are `w` stored at the pc, so that the next step runs it: RUNNING, since a
blocked step fetches nothing (40_cycle.md R76), and a host that sends `Step` events only (log entry 7). -/
def State.withFetchWord (s : State) (nbits w : Nat) : State :=
  (((s.writeBytes s.pc.toNat (tableWordBytes nbits w)).setMode .running).setSchedule []).setScheduleEnd .stepsOnly

end Sys2Proof.Machine
end

