-- ==== Sys2Proof/Safety.lean ====
section
/-! DEFINITION. The terms the statements are made in: what a step leaves unchanged, how the pc moves, which parts and
whether VF an instruction may write, the audio protocol, and the invariants of the machine. -/

namespace Sys2Proof.Machine

/-! ### What stays the same -/

/-- The parts of the state, named. `draws`, `schedule`, `scheduleEnd` and `inputs` are the model's own
(log entries 1 and 2). -/
inductive Part where
  | regs | pc | index | stack | dt | st | keys | frame | mode | waitReg | frameUpdated | mem | trace | draws | schedule
  | scheduleEnd | inputs
  deriving DecidableEq, Repr

/-- `t` has the same part as `s`, through the model's reads: every register, every key, every cell of the frame,
every byte of memory. -/
def SamePart (s t : State) : Part → Prop
  | .regs => ∀ r : Reg, t.reg r = s.reg r
  | .pc => t.pc = s.pc
  | .index => t.index = s.index
  | .stack => t.stack = s.stack
  | .dt => t.dt = s.dt
  | .st => t.st = s.st
  | .keys => ∀ k : KeyCode, t.key k = s.key k
  | .frame => ∀ x y : Nat, t.frameRead x y = s.frameRead x y
  | .mode => t.mode = s.mode
  | .waitReg => t.waitReg = s.waitReg
  | .frameUpdated => t.frameUpdated = s.frameUpdated
  | .mem => ∀ a : Nat, t.readByte a = s.readByte a
  | .trace => t.trace = s.trace
  | .draws => t.draws = s.draws
  | .schedule => t.schedule = s.schedule
  | .scheduleEnd => t.scheduleEnd = s.scheduleEnd
  | .inputs => t.inputs = s.inputs

/-- Every part outside the list is the same in `t` as in `s`. -/
def OnlyChanges (ps : List Part) (s t : State) : Prop := ∀ p : Part, p ∉ ps → SamePart s t p

/-- Every general register outside the list is the same in `t` as in `s`. -/
def RegsKept (rs : List Reg) (s t : State) : Prop := ∀ r : Reg, r ∉ rs → t.reg r = s.reg r

/-- Every byte outside the `n` addresses from `a` on, each masked to 12 bits, reads the same in `t` as in `s`. -/
def BytesKept (a n : Nat) (s t : State) : Prop :=
  ∀ c : Nat, (∀ k : Nat, k < n → c % 4096 ≠ (a + k) % 4096) → t.readByte c = s.readByte c

/-! ### How the pc moves -/

/-- The pc of `t` is that of `s` plus 2, masked to 12 bits (40_cycle.md R79). -/
def PcAdvances (s t : State) : Prop := t.pc.toNat = (s.pc.toNat + 2) % 4096

/-- The pc of `t` is that of `s` plus 4 when `c` holds, plus 2 when it does not, masked to 12 bits (40_cycle.md R81). -/
def PcSkips (c : Prop) (s t : State) : Prop :=
  (c → t.pc.toNat = (s.pc.toNat + 4) % 4096) ∧ (¬ c → t.pc.toNat = (s.pc.toNat + 2) % 4096)

/-! ### Encodings -/

/-- The instruction's word has these fixed bits and decodes to the instruction (30_encoding.md R68). -/
def HasEncoding (code mask : Word) (i : Instr) : Prop := encode i &&& mask = code ∧ decode (encode i) = .ok i

/-! ### What an instruction may write -/

/-- The parts each instruction may write, read from the spec's own lists (10_state.md R20, R24, R25, R26, R30, R31,
R34, R36; 40_cycle.md R79, R80; 20_memory.md R47). -/
def writtenParts : Instr → List Part
  | .cls => [.pc, .frame, .frameUpdated]
  | .ret => [.pc, .stack]
  | .jp _ => [.pc]
  | .call _ => [.pc, .stack]
  | .seImm _ _ => [.pc]
  | .sneImm _ _ => [.pc]
  | .seReg _ _ => [.pc]
  | .ldImm _ _ => [.pc, .regs]
  | .addImm _ _ => [.pc, .regs]
  | .ldReg _ _ => [.pc, .regs]
  | .orReg _ _ => [.pc, .regs]
  | .andReg _ _ => [.pc, .regs]
  | .xorReg _ _ => [.pc, .regs]
  | .addReg _ _ => [.pc, .regs]
  | .sub _ _ => [.pc, .regs]
  | .shr _ _ => [.pc, .regs]
  | .subn _ _ => [.pc, .regs]
  | .shl _ _ => [.pc, .regs]
  | .sneReg _ _ => [.pc]
  | .ldI _ => [.pc, .index]
  | .jpV0 _ => [.pc]
  | .rnd _ _ => [.pc, .regs, .draws]
  | .drw _ _ _ => [.pc, .regs, .frame, .frameUpdated]
  | .skp _ => [.pc]
  | .sknp _ => [.pc]
  | .ldVxDt _ => [.pc, .regs]
  | .ldVxK _ => [.keys, .waitReg, .mode]
  | .ldDtVx _ => [.pc, .dt]
  | .ldStVx _ => [.pc, .st, .trace]
  | .addI _ => [.pc, .index, .regs]
  | .ldF _ => [.pc, .index]
  | .ldB _ => [.pc, .mem]
  | .ldMemVx _ => [.pc, .mem]
  | .ldVxMem _ => [.pc, .regs]

/-- The registers each instruction may write: its destination, VF as a flag, V0 to VX for FX65 (10_state.md R20, R35). -/
def writtenRegs : Instr → List Reg
  | .ldImm x _ => [x]
  | .addImm x _ => [x]
  | .ldReg x _ => [x]
  | .orReg x _ => [x]
  | .andReg x _ => [x]
  | .xorReg x _ => [x]
  | .addReg x _ => [x, Reg.VF]
  | .sub x _ => [x, Reg.VF]
  | .shr x _ => [x, Reg.VF]
  | .subn x _ => [x, Reg.VF]
  | .shl x _ => [x, Reg.VF]
  | .rnd x _ => [x]
  | .drw _ _ _ => [Reg.VF]
  | .ldVxDt x => [x]
  | .addI _ => [Reg.VF]
  | .ldVxMem x => (List.finRange 16).filter fun r => r ≤ x
  | .cls => []
  | .ret => []
  | .jp _ => []
  | .call _ => []
  | .seImm _ _ => []
  | .sneImm _ _ => []
  | .seReg _ _ => []
  | .sneReg _ _ => []
  | .ldI _ => []
  | .jpV0 _ => []
  | .skp _ => []
  | .sknp _ => []
  | .ldVxK _ => []
  | .ldDtVx _ => []
  | .ldStVx _ => []
  | .ldF _ => []
  | .ldB _ => []
  | .ldMemVx _ => []

/-- How many bytes each instruction stores, from the address in I on, each address masked (20_memory.md R47). -/
def storedBytes : Instr → Nat
  | .ldB _ => 3
  | .ldMemVx x => x.val + 1
  | .cls => 0
  | .ret => 0
  | .jp _ => 0
  | .call _ => 0
  | .seImm _ _ => 0
  | .sneImm _ _ => 0
  | .seReg _ _ => 0
  | .ldImm _ _ => 0
  | .addImm _ _ => 0
  | .ldReg _ _ => 0
  | .orReg _ _ => 0
  | .andReg _ _ => 0
  | .xorReg _ _ => 0
  | .addReg _ _ => 0
  | .sub _ _ => 0
  | .shr _ _ => 0
  | .subn _ _ => 0
  | .shl _ _ => 0
  | .sneReg _ _ => 0
  | .ldI _ => 0
  | .jpV0 _ => 0
  | .rnd _ _ => 0
  | .drw _ _ _ => 0
  | .skp _ => 0
  | .sknp _ => 0
  | .ldVxDt _ => 0
  | .ldVxK _ => 0
  | .ldDtVx _ => 0
  | .ldStVx _ => 0
  | .addI _ => 0
  | .ldF _ => 0
  | .ldVxMem _ => 0

/-! ### The audio protocol and the invariants -/

/-- Whether the tone is on after a trace (newest first), or `none` where a `start()` and a `stop()` do not alternate
beginning with `start()` (60_exceptions.md R149). -/
def toneAfter : List Output → Option Bool
  | [] => some false
  | .diag _ :: rest => toneAfter rest
  | .start :: rest => if toneAfter rest = some false then some true else none
  | .stop :: rest => if toneAfter rest = some true then some false else none

/-- The `start()` and `stop()` emitted so far alternate, beginning with `start()`, and the tone is on exactly when ST
is above 0 (60_exceptions.md R149, 10_state.md R29). -/
def AudioAgrees (s : State) : Prop := toneAfter s.trace = some s.audible

/-- While the CPU is blocked the pc points at the FX0A whose X field is in `wait_reg` (10_state.md R33). -/
def WaitsAtAwaitKey (s : State) : Prop := s.mode = .blockedForInput → decode s.fetch = .ok (.ldVxK s.waitReg)

/-- Every call-stack entry is a 12-bit program-counter value (10_state.md R26, 41_flow.md R88). -/
def StackHoldsAddresses (s : State) : Prop := ∀ w ∈ s.stack, w.toNat < 4096

/-- The event that the next step applies is the CPU step (60_exceptions.md R142; log entry 2). -/
def StepsNext (s : State) : Prop := s.nextInput = .step

/-- The four invariants of the machine together. -/
def MeetsInvariants (s : State) : Prop :=
  Memory.wf s.mem ∧ AudioAgrees s ∧ WaitsAtAwaitKey s ∧ StackHoldsAddresses s

/-- The run goes on: the step answers a next state. -/
def Completes (s : State) : Prop := ∃ t : State, step s = .next t

end Sys2Proof.Machine
end

