-- ==== Sys2Proof/Certificates/Slice0/Obligations.lean ====
section
/-! DEFINITION. The statements for the provers, each formalising numbered rules of spec/. The pc of this machine is
12 bits wide (00_scope.md R11, 10_state.md R22); where a statement rests on a decision the spec marks as its own
choice (92_eei_decisions.md D<n>) or on a log entry of the model, its docstring says which. -/

open Sys2Proof Sys2Proof.Machine

/-! ### Decoding and encoding -/

/-- 30_encoding.md R68: words written out bit by bit from the rows' patterns, one or more per family, decode to the
instruction they stand for. 00E0 and 00EE rest on the spec's decision D16. -/
def Obligations.SampleWordsDecode : Prop :=
  decode 0b0000000011100000#16 = .ok .cls ∧
  decode 0b0000000011101110#16 = .ok .ret ∧
  decode 0b0010001000010000#16 = .ok (.call 0x210) ∧
  decode 0b0011101001000010#16 = .ok (.seImm 0xA 0x42) ∧
  decode 0b1000000100100101#16 = .ok (.sub 1 2) ∧
  decode 0b1010001100000000#16 = .ok (.ldI 0x300) ∧
  decode 0b1101000100100101#16 = .ok (.drw 1 2 5) ∧
  decode 0b1110010110011110#16 = .ok (.skp 5) ∧
  decode 0b1111001000001010#16 = .ok (.ldVxK 2) ∧
  decode 0b1111000100011000#16 = .ok (.ldStVx 1) ∧
  decode 0b1111001001100101#16 = .ok (.ldVxMem 2)

/-- 30_encoding.md R66, R68: decoding the word of any instruction, with every operand at every value its field admits,
gives that instruction back; so does decoding its two bytes, and the bytes after them are left over (R63). The
encodings of CLS and RET rest on the spec's decision D16. -/
def Obligations.EveryInstructionRoundTrips : Prop :=
  ∀ i : Instr, decode (encode i) = .ok i ∧ ∀ rest : List Byte, decodeBytes (encodeBytes i ++ rest) = .ok (i, rest)

/-- 30_encoding.md R65, R68: a word that decodes to an instruction is that instruction's word, so no bit of a known
word is dropped. Rests on strict decoding, the spec's decision D16. -/
def Obligations.DecodedWordIsTheEncoding : Prop :=
  ∀ (w : Word) (i : Instr), decode w = .ok i → encode i = w

/-- 30_encoding.md R68: a word decodes exactly when it selects a row of the opcode map, `(w & mask) == match`; the row
it selects is the instruction's, and no other row selects it ("no two rows match the same word"). Rests on strict
decoding, the spec's decision D16. -/
def Obligations.DecodingFollowsTheOpcodeMap : Prop :=
  (∀ w : Word, wordKnown w = true ↔ ∃ i : Instr, decode w = .ok i) ∧
  (∀ (w : Word) (i : Instr), decode w = .ok i →
    ∀ row ∈ opcodeTable, row.selects w = true ↔ row.mnemonic = i.mnemonic)

/-- 30_encoding.md R71: each class of unknown words, with the name the decoder rejects it by. Rests on strict decoding
and on the recovered 0 family, the spec's decision D16. -/
def Obligations.UnknownWordsAreRejectedByClass : Prop :=
  ∀ w : Word,
    (decode w = .error .unknown0NNN ↔ w.toNat / 4096 = 0x0 ∧ w.toNat ≠ 0x00E0 ∧ w.toNat ≠ 0x00EE) ∧
    (decode w = .error .unknown5XYn ↔ w.toNat / 4096 = 0x5 ∧ w.toNat % 16 ≠ 0) ∧
    (decode w = .error .unknown8XYn ↔ w.toNat / 4096 = 0x8 ∧ w.toNat % 16 ∈ [8, 9, 0xA, 0xB, 0xC, 0xD, 0xF]) ∧
    (decode w = .error .unknown9XYn ↔ w.toNat / 4096 = 0x9 ∧ w.toNat % 16 ≠ 0) ∧
    (decode w = .error .unknownEXkk ↔ w.toNat / 4096 = 0xE ∧ w.toNat % 256 ∉ [0x9E, 0xA1]) ∧
    (decode w = .error .unknownFXkk ↔ w.toNat / 4096 = 0xF ∧
      w.toNat % 256 ∉ [0x07, 0x0A, 0x15, 0x18, 0x1E, 0x29, 0x33, 0x55, 0x65]) ∧
    decode w ≠ .error .short

/-! ### Memory -/

/-- 20_memory.md R42: a byte write at any address stores at the address masked to 12 bits, a byte read reads there, a
read after a write to the same address returns the byte, and every other byte and every other part is left alone. -/
def Obligations.ByteReadAfterWrite : Prop :=
  ∀ (s : State) (a : Nat) (b : Byte),
    s.readByte a = s.readByte (a % 4096) ∧
    (s.writeByte a b).readByte a = b ∧
    (s.writeByte a b).readByte (a % 4096) = b ∧
    BytesKept a 1 s (s.writeByte a b) ∧
    OnlyChanges [.mem] s (s.writeByte a b)

/-- 20_memory.md R43, R44: a word write is big-endian, the high byte at the lower address, each address masked on its
own; a word read after it returns the word; every other byte is left alone. The masking of each byte's address is the
spec's decision D5. -/
def Obligations.WordReadAfterWrite : Prop :=
  ∀ (s : State) (a : Nat) (w : Word),
    (s.writeWord a w).readWord a = w ∧
    ((s.writeWord a w).readByte a).toNat = w.toNat / 256 ∧
    ((s.writeWord a w).readByte (a + 1)).toNat = w.toNat % 256 ∧
    BytesKept a 2 s (s.writeWord a w) ∧
    OnlyChanges [.mem] s (s.writeWord a w)

/-- 20_memory.md R43, 40_cycle.md R77: the fetched word is the byte at the pc in the high half and the byte at pc + 1,
masked, in the low half; at pc = 0xFFF the low byte comes from 0x000 (the spec's decision D5). -/
def Obligations.FetchIsBigEndian : Prop :=
  ∀ s : State,
    s.fetch.toNat = 256 * (s.readByte s.pc.toNat).toNat + (s.readByte ((s.pc.toNat + 1) % 4096)).toNat

/-! ### Control transfer and skips -/

/-- 41_flow.md R87: JP sets the pc to NNN and changes nothing else. -/
def Obligations.JpSetsThePc : Prop :=
  ∀ (nnn : Addr) (s : State), HasEncoding 0x1000 0xF000 (.jp nnn) ∧
    ∃ t : State, exec (.jp nnn) s = .next t ∧ t.pc = nnn ∧ OnlyChanges [.pc] s t

/-- 41_flow.md R88: CALL pushes the address after it, masked to 12 bits, jumps to NNN and changes nothing else; the
push always succeeds. The masking of the pushed value and the unbounded stack are the spec's decisions D21 and D20. -/
def Obligations.CallPushesAndJumps : Prop :=
  ∀ (nnn : Addr) (s : State), HasEncoding 0x2000 0xF000 (.call nnn) ∧
    ∃ (t : State) (w : Word), exec (.call nnn) s = .next t ∧ t.pc = nnn ∧
      t.stack = w :: s.stack ∧ w.toNat = (s.pc.toNat + 2) % 4096 ∧ OnlyChanges [.pc, .stack] s t

/-- 41_flow.md R86: RET pops the top entry into the pc, masked to 12 bits, with nothing added; on an empty stack it
changes nothing at all, so the next step repeats it. The encoding 00EE is the spec's decision D16. -/
def Obligations.RetPopsOrStays : Prop :=
  ∀ s : State, HasEncoding 0x00EE 0xFFFF .ret ∧
    (s.stack = [] → exec .ret s = .next s) ∧
    (∀ (w : Word) (rest : List Word), s.stack = w :: rest →
      ∃ t : State, exec .ret s = .next t ∧ t.pc.toNat = w.toNat % 4096 ∧ t.stack = rest ∧
        OnlyChanges [.pc, .stack] s t)

/-- 41_flow.md R89, R90 with 40_cycle.md R81: SE_IMM skips when VX equals NN, SNE_IMM when it differs; a skip adds 4 to
the pc, no skip adds 2, and nothing else changes. -/
def Obligations.ImmediateSkips : Prop :=
  ∀ (x : Reg) (nn : Byte) (s : State),
    HasEncoding 0x3000 0xF000 (.seImm x nn) ∧ HasEncoding 0x4000 0xF000 (.sneImm x nn) ∧
    (∃ t : State, exec (.seImm x nn) s = .next t ∧ PcSkips (s.reg x = nn) s t ∧ OnlyChanges [.pc] s t) ∧
    (∃ t : State, exec (.sneImm x nn) s = .next t ∧ PcSkips (s.reg x ≠ nn) s t ∧ OnlyChanges [.pc] s t)

/-- 41_flow.md R91, R92 with 40_cycle.md R81: SE_REG skips when VX equals VY, SNE_REG when they differ; nothing else
changes. The mask F00F of their encodings is the spec's decision D16 (strict decoding). -/
def Obligations.RegisterSkips : Prop :=
  ∀ (x y : Reg) (s : State),
    HasEncoding 0x5000 0xF00F (.seReg x y) ∧ HasEncoding 0x9000 0xF00F (.sneReg x y) ∧
    (∃ t : State, exec (.seReg x y) s = .next t ∧ PcSkips (s.reg x = s.reg y) s t ∧ OnlyChanges [.pc] s t) ∧
    (∃ t : State, exec (.sneReg x y) s = .next t ∧ PcSkips (s.reg x ≠ s.reg y) s t ∧ OnlyChanges [.pc] s t)

/-- 41_flow.md R93: JP_V0 sets the pc to V0 + NNN, wrapped to 12 bits (the spec's decision D3), and changes nothing
else. -/
def Obligations.JpV0AddsV0 : Prop :=
  ∀ (nnn : Addr) (s : State), HasEncoding 0xB000 0xF000 (.jpV0 nnn) ∧
    ∃ t : State, exec (.jpV0 nnn) s = .next t ∧ t.pc.toNat = ((s.reg 0).toNat + nnn.toNat) % 4096 ∧
      OnlyChanges [.pc] s t

/-! ### Register loads and arithmetic -/

/-- 42_alu.md R97, R99: LD_IMM writes NN to VX and LD_REG writes VY to VX; the pc advances by 2; every other register
(VF too, unless it is VX) and every other part is unchanged. -/
def Obligations.LoadsWriteVx : Prop :=
  ∀ (x y : Reg) (nn : Byte) (s : State),
    HasEncoding 0x6000 0xF000 (.ldImm x nn) ∧ HasEncoding 0x8000 0xF00F (.ldReg x y) ∧
    (∃ t : State, exec (.ldImm x nn) s = .next t ∧ t.reg x = nn ∧
      RegsKept [x] s t ∧ PcAdvances s t ∧ OnlyChanges [.pc, .regs] s t) ∧
    (∃ t : State, exec (.ldReg x y) s = .next t ∧ t.reg x = s.reg y ∧
      RegsKept [x] s t ∧ PcAdvances s t ∧ OnlyChanges [.pc, .regs] s t)

/-- 42_alu.md R98: ADD_IMM adds NN to VX modulo 256 and writes no carry: VF is unchanged unless it is VX. -/
def Obligations.AddImmWraps : Prop :=
  ∀ (x : Reg) (nn : Byte) (s : State), HasEncoding 0x7000 0xF000 (.addImm x nn) ∧
    ∃ t : State, exec (.addImm x nn) s = .next t ∧ (t.reg x).toNat = ((s.reg x).toNat + nn.toNat) % 256 ∧
      RegsKept [x] s t ∧ PcAdvances s t ∧ OnlyChanges [.pc, .regs] s t

/-- 42_alu.md R100, R101, R102: OR, AND and XOR, bit by bit; VF is not written unless it is VX, which is the spec's
decision D15. -/
def Obligations.LogicIsBitwise : Prop :=
  ∀ (x y : Reg) (s : State),
    HasEncoding 0x8001 0xF00F (.orReg x y) ∧ HasEncoding 0x8002 0xF00F (.andReg x y) ∧
    HasEncoding 0x8003 0xF00F (.xorReg x y) ∧
    (∃ t : State, exec (.orReg x y) s = .next t ∧
      (∀ b : Nat, (t.reg x).getLsbD b = ((s.reg x).getLsbD b || (s.reg y).getLsbD b)) ∧
      RegsKept [x] s t ∧ PcAdvances s t ∧ OnlyChanges [.pc, .regs] s t) ∧
    (∃ t : State, exec (.andReg x y) s = .next t ∧
      (∀ b : Nat, (t.reg x).getLsbD b = ((s.reg x).getLsbD b && (s.reg y).getLsbD b)) ∧
      RegsKept [x] s t ∧ PcAdvances s t ∧ OnlyChanges [.pc, .regs] s t) ∧
    (∃ t : State, exec (.xorReg x y) s = .next t ∧
      (∀ b : Nat, (t.reg x).getLsbD b = ((s.reg x).getLsbD b != (s.reg y).getLsbD b)) ∧
      RegsKept [x] s t ∧ PcAdvances s t ∧ OnlyChanges [.pc, .regs] s t)

/-- 42_alu.md R103: ADD_REG writes the sum modulo 256 to VX and the carry to VF; with X = F the carry is what stays,
which is the spec's decision D13. -/
def Obligations.AddRegCarries : Prop :=
  ∀ (x y : Reg) (s : State), HasEncoding 0x8004 0xF00F (.addReg x y) ∧
    ∃ t : State, exec (.addReg x y) s = .next t ∧
      (x ≠ Reg.VF → (t.reg x).toNat = ((s.reg x).toNat + (s.reg y).toNat) % 256) ∧
      (t.reg Reg.VF).toNat = (if (s.reg x).toNat + (s.reg y).toNat > 255 then 1 else 0) ∧
      RegsKept [x, Reg.VF] s t ∧ PcAdvances s t ∧ OnlyChanges [.pc, .regs] s t

/-- 42_alu.md R104, R106, R95: SUB writes VX - VY and SUBN writes VY - VX, modulo 256, to VX, and NOT borrow to VF: 1
when the minuend is at least the subtrahend. Equality counting as no borrow is the spec's decision D14, the flag
staying when X = F its decision D13. -/
def Obligations.SubtractionsBorrow : Prop :=
  ∀ (x y : Reg) (s : State),
    HasEncoding 0x8005 0xF00F (.sub x y) ∧ HasEncoding 0x8007 0xF00F (.subn x y) ∧
    (∃ t : State, exec (.sub x y) s = .next t ∧
      (x ≠ Reg.VF → ((t.reg x).toNat : Int) = ((s.reg x).toNat - (s.reg y).toNat : Int) % 256) ∧
      (t.reg Reg.VF).toNat = (if (s.reg x).toNat ≥ (s.reg y).toNat then 1 else 0) ∧
      RegsKept [x, Reg.VF] s t ∧ PcAdvances s t ∧ OnlyChanges [.pc, .regs] s t) ∧
    (∃ t : State, exec (.subn x y) s = .next t ∧
      (x ≠ Reg.VF → ((t.reg x).toNat : Int) = ((s.reg y).toNat - (s.reg x).toNat : Int) % 256) ∧
      (t.reg Reg.VF).toNat = (if (s.reg y).toNat ≥ (s.reg x).toNat then 1 else 0) ∧
      RegsKept [x, Reg.VF] s t ∧ PcAdvances s t ∧ OnlyChanges [.pc, .regs] s t)

/-- 42_alu.md R105, R107: SHR writes VX halved and the old bit 0 to VF; SHL writes VX doubled modulo 256 and the old
bit 7 to VF; Y is ignored. Shifting VX is the spec's decision D11, the flag staying when X = F its decision D13. -/
def Obligations.ShiftsDropOneBit : Prop :=
  ∀ (x y : Reg) (s : State),
    HasEncoding 0x8006 0xF00F (.shr x y) ∧ HasEncoding 0x800E 0xF00F (.shl x y) ∧
    (∃ t : State, exec (.shr x y) s = .next t ∧
      (x ≠ Reg.VF → (t.reg x).toNat = (s.reg x).toNat / 2) ∧
      (t.reg Reg.VF).toNat = (s.reg x).toNat % 2 ∧
      RegsKept [x, Reg.VF] s t ∧ PcAdvances s t ∧ OnlyChanges [.pc, .regs] s t) ∧
    (∃ t : State, exec (.shl x y) s = .next t ∧
      (x ≠ Reg.VF → (t.reg x).toNat = 2 * (s.reg x).toNat % 256) ∧
      (t.reg Reg.VF).toNat = (s.reg x).toNat / 128 ∧
      RegsKept [x, Reg.VF] s t ∧ PcAdvances s t ∧ OnlyChanges [.pc, .regs] s t)

/-- 42_alu.md R109: RND writes a free draw AND NN to VX, so every bit NN clears is 0 whatever the draw; the draw is the
free value of log entry 1 (the spec's decision D10), taken from the model's own counter, which moves on by one. -/
def Obligations.RndMasksTheDraw : Prop :=
  ∀ (x : Reg) (nn : Byte) (s : State), HasEncoding 0xC000 0xF000 (.rnd x nn) ∧
    ∃ t : State, exec (.rnd x nn) s = .next t ∧
      t.reg x = Config.randomByte s.draws &&& nn ∧
      (∀ b : Nat, nn.getLsbD b = false → (t.reg x).getLsbD b = false) ∧
      t.draws = s.draws + 1 ∧
      RegsKept [x] s t ∧ PcAdvances s t ∧ OnlyChanges [.pc, .regs, .draws] s t

/-! ### Index register and memory transfer -/

/-- 43_index_memory.md R110: LD_I writes NNN to I and advances; nothing else changes. -/
def Obligations.LdISetsI : Prop :=
  ∀ (nnn : Addr) (s : State), HasEncoding 0xA000 0xF000 (.ldI nnn) ∧
    ∃ t : State, exec (.ldI nnn) s = .next t ∧ t.index = nnn ∧ PcAdvances s t ∧ OnlyChanges [.pc, .index] s t

/-- 43_index_memory.md R111: ADD_I adds the old VX to I on 12 bits and writes VF in both cases, 1 when the sum passes
0xFFF and 0 otherwise (the spec's decision D4). -/
def Obligations.AddIOverflows : Prop :=
  ∀ (x : Reg) (s : State), HasEncoding 0xF01E 0xF0FF (.addI x) ∧
    ∃ t : State, exec (.addI x) s = .next t ∧
      t.index.toNat = (s.index.toNat + (s.reg x).toNat) % 4096 ∧
      (t.reg Reg.VF).toNat = (if s.index.toNat + (s.reg x).toNat > 0xFFF then 1 else 0) ∧
      RegsKept [Reg.VF] s t ∧ PcAdvances s t ∧ OnlyChanges [.pc, .index, .regs] s t

/-- 43_index_memory.md R112: LD_F points I at the glyph of the low nibble of VX, 5 bytes a glyph from `FONT_BASE`
(0x000 by the spec's decision D2); the high nibble is ignored. -/
def Obligations.LdFPointsAtTheGlyph : Prop :=
  ∀ (x : Reg) (s : State), HasEncoding 0xF029 0xF0FF (.ldF x) ∧
    ∃ t : State, exec (.ldF x) s = .next t ∧ t.index.toNat = Params.fontBase + 5 * ((s.reg x).toNat % 16) ∧
      PcAdvances s t ∧ OnlyChanges [.pc, .index] s t

/-- 43_index_memory.md R113: LD_B stores the hundreds, tens and ones of VX at I, I + 1 and I + 2, each address masked on
its own; every other byte, I and every other part is unchanged. -/
def Obligations.LdBStoresDigits : Prop :=
  ∀ (x : Reg) (s : State), HasEncoding 0xF033 0xF0FF (.ldB x) ∧
    ∃ t : State, exec (.ldB x) s = .next t ∧
      (t.readByte s.index.toNat).toNat = (s.reg x).toNat / 100 ∧
      (t.readByte (s.index.toNat + 1)).toNat = (s.reg x).toNat / 10 % 10 ∧
      (t.readByte (s.index.toNat + 2)).toNat = (s.reg x).toNat % 10 ∧
      BytesKept s.index.toNat 3 s t ∧ PcAdvances s t ∧ OnlyChanges [.pc, .mem] s t

/-- 43_index_memory.md R114: LD_MEM_VX stores V0 to VX at I to I + X, each address masked on its own; every other byte is
unchanged, and I too, which is the spec's decision D12. -/
def Obligations.LdMemVxStoresRegisters : Prop :=
  ∀ (x : Reg) (s : State), HasEncoding 0xF055 0xF0FF (.ldMemVx x) ∧
    ∃ t : State, exec (.ldMemVx x) s = .next t ∧
      (∀ k : Reg, k ≤ x → t.readByte (s.index.toNat + k.val) = s.reg k) ∧
      BytesKept s.index.toNat (x.val + 1) s t ∧ PcAdvances s t ∧ OnlyChanges [.pc, .mem] s t

/-- 43_index_memory.md R115: LD_VX_MEM loads V0 to VX from I to I + X, each address masked on its own; the registers
above VX are unchanged, and I too, which is the spec's decision D12. -/
def Obligations.LdVxMemLoadsRegisters : Prop :=
  ∀ (x : Reg) (s : State), HasEncoding 0xF065 0xF0FF (.ldVxMem x) ∧
    ∃ t : State, exec (.ldVxMem x) s = .next t ∧
      (∀ k : Reg, k ≤ x → t.reg k = s.readByte (s.index.toNat + k.val)) ∧
      (∀ k : Reg, x < k → t.reg k = s.reg k) ∧
      PcAdvances s t ∧ OnlyChanges [.pc, .regs] s t

/-- 20_memory.md R60: a store is seen by the next fetch: after LD_MEM_VX, when two neighbouring stored bytes lie at the
new pc, the next word fetched is made of the two registers stored there. -/
def Obligations.NextFetchSeesTheStore : Prop :=
  ∀ (x k : Reg) (s t : State), exec (.ldMemVx x) s = .next t → k.val + 1 ≤ x.val →
    t.pc.toNat = (s.index.toNat + k.val) % 4096 →
    t.fetch.toNat = 256 * (s.reg k).toNat + (s.reg (k + 1)).toNat

/-! ### Framebuffer -/

/-- 44_display.md R117: a toggle inside the grid flips that cell, leaves every other cell, and reports whether the cell
was ON; outside the grid it changes no cell and reports false. There every frame reads OFF, through the frame read port
too (the out-of-grid half of 60_exceptions.md R145). -/
def Obligations.ToggleFlipsOneCell : Prop :=
  ∀ (f : Frame) (s : State) (x y : Nat),
    (x < 64 ∧ y < 32 →
      (f.get x y = .off → (f.toggle x y).1.get x y = .on ∧ (f.toggle x y).2 = false) ∧
      (f.get x y = .on → (f.toggle x y).1.get x y = .off ∧ (f.toggle x y).2 = true) ∧
      (∀ p q : Nat, p ≠ x ∨ q ≠ y → (f.toggle x y).1.get p q = f.get p q)) ∧
    (64 ≤ x ∨ 32 ≤ y → f.toggle x y = (f, false) ∧ f.get x y = .off ∧ s.frameRead x y = .off)

/-- 44_display.md R118: toggling one cell of the grid twice restores the frame; a cell that starts OFF reports false
then true, one that starts ON reports true then false. -/
def Obligations.ToggleTwiceRestores : Prop :=
  ∀ (f : Frame) (x y : Nat), x < 64 → y < 32 →
    ((f.toggle x y).1.toggle x y).1 = f ∧
    (f.get x y = .off → (f.toggle x y).2 = false ∧ ((f.toggle x y).1.toggle x y).2 = true) ∧
    (f.get x y = .on → (f.toggle x y).2 = true ∧ ((f.toggle x y).1.toggle x y).2 = false)

/-- 44_display.md R120, R121: drawing a sprite flips exactly the cells of the grid under its set bits (bit 7 - col of
byte line), clips what lies outside the grid and wraps nothing, and reports a collision exactly when one of the
flipped cells was ON. -/
def Obligations.DrawSpriteFlipsItsBits : Prop :=
  ∀ (f : Frame) (rows : List Byte) (x y : Nat),
    (∀ line col : Nat, line < rows.length → col < 8 → x + col < 64 → y + line < 32 →
      (rows.getD line 0).getLsbD (7 - col) = true →
      (f.get (x + col) (y + line) = .off → (f.drawSprite rows x y).1.get (x + col) (y + line) = .on) ∧
      (f.get (x + col) (y + line) = .on → (f.drawSprite rows x y).1.get (x + col) (y + line) = .off)) ∧
    (∀ p q : Nat,
      (∀ line col : Nat, line < rows.length → col < 8 → (rows.getD line 0).getLsbD (7 - col) = true →
        ¬ (p = x + col ∧ q = y + line)) →
      (f.drawSprite rows x y).1.get p q = f.get p q) ∧
    ((f.drawSprite rows x y).2 = true ↔
      ∃ line col : Nat, line < rows.length ∧ col < 8 ∧ x + col < 64 ∧ y + line < 32 ∧
        (rows.getD line 0).getLsbD (7 - col) = true ∧ f.get (x + col) (y + line) = .on)

/-- 44_display.md R123 (corner cases), R118, R120: drawing the same sprite twice at the same place restores the frame,
and the second draw collides exactly when a cell of the grid under a set bit was OFF before the first. R123 says it
collides "when the sprite has any in-bounds set bit", which holds of cells that start OFF (log entry 8). -/
def Obligations.DrawTwiceRestores : Prop :=
  ∀ (f : Frame) (rows : List Byte) (x y : Nat),
    ((f.drawSprite rows x y).1.drawSprite rows x y).1 = f ∧
    (((f.drawSprite rows x y).1.drawSprite rows x y).2 = true ↔
      ∃ line col : Nat, line < rows.length ∧ col < 8 ∧ x + col < 64 ∧ y + line < 32 ∧
        (rows.getD line 0).getLsbD (7 - col) = true ∧ f.get (x + col) (y + line) = .off)

/-- 44_display.md R122, R119: CLS turns every cell OFF, sets `frame_updated` (the spec's decision D22) and advances;
nothing else changes, VF included. Its encoding 00E0 is the spec's decision D16. -/
def Obligations.ClsClearsTheFrame : Prop :=
  ∀ s : State, HasEncoding 0x00E0 0xFFFF .cls ∧
    ∃ t : State, exec .cls s = .next t ∧ (∀ x y : Nat, t.frameRead x y = .off) ∧ t.frameUpdated = true ∧
      PcAdvances s t ∧ OnlyChanges [.pc, .frame, .frameUpdated] s t

/-- 44_display.md R123: DRW flips the cells of the grid under the set bits of the N bytes at I, I + 1, … (each address
masked on its own), with the corner at the old (VX, VY); VF = 1 when a flipped cell was ON and 0 otherwise;
`frame_updated` is set (the spec's decision D22); I, memory and every other register are unchanged. -/
def Obligations.DrwDrawsAndCollides : Prop :=
  ∀ (x y : Reg) (n : Nibble) (s : State), HasEncoding 0xD000 0xF000 (.drw x y n) ∧
    ∃ t : State, exec (.drw x y n) s = .next t ∧
      (∀ p q : Nat, t.frameRead p q ≠ s.frameRead p q ↔
        p < 64 ∧ q < 32 ∧ ∃ line col : Nat, line < n.toNat ∧ col < 8 ∧
          p = (s.reg x).toNat + col ∧ q = (s.reg y).toNat + line ∧
          (s.readByte (s.index.toNat + line)).getLsbD (7 - col) = true) ∧
      ((t.reg Reg.VF).toNat = 1 ∨ (t.reg Reg.VF).toNat = 0) ∧
      ((t.reg Reg.VF).toNat = 1 ↔ ∃ p q : Nat, s.frameRead p q = .on ∧ t.frameRead p q = .off) ∧
      t.frameUpdated = true ∧ RegsKept [Reg.VF] s t ∧ PcAdvances s t ∧
      OnlyChanges [.pc, .regs, .frame, .frameUpdated] s t

/-! ### Timers -/

/-- 45_timers.md R125: LD_VX_DT writes DT to VX and advances; DT and every other part are unchanged. -/
def Obligations.LdVxDtReadsTheDelay : Prop :=
  ∀ (x : Reg) (s : State), HasEncoding 0xF007 0xF0FF (.ldVxDt x) ∧
    ∃ t : State, exec (.ldVxDt x) s = .next t ∧ t.reg x = s.dt ∧
      RegsKept [x] s t ∧ PcAdvances s t ∧ OnlyChanges [.pc, .regs] s t

/-- 45_timers.md R126, R124: LD_DT_VX loads a VX above 0 into DT; a VX of 0 leaves DT as it was (the spec's decision
D17); nothing but DT and the pc changes, and no audio event is emitted. -/
def Obligations.LdDtVxArmsTheDelay : Prop :=
  ∀ (x : Reg) (s : State), HasEncoding 0xF015 0xF0FF (.ldDtVx x) ∧
    ∃ t : State, exec (.ldDtVx x) s = .next t ∧ t.dt = (if s.reg x = 0 then s.dt else s.reg x) ∧
      PcAdvances s t ∧ OnlyChanges [.pc, .dt] s t

/-- 45_timers.md R127, R124: LD_ST_VX loads a VX above 0 into ST and emits `start()` exactly when ST was 0; a VX of 0
leaves ST as it was and emits nothing (the spec's decisions D17 and D29). -/
def Obligations.LdStVxArmsTheSound : Prop :=
  ∀ (x : Reg) (s : State), HasEncoding 0xF018 0xF0FF (.ldStVx x) ∧
    ∃ t : State, exec (.ldStVx x) s = .next t ∧ t.st = (if s.reg x = 0 then s.st else s.reg x) ∧
      t.trace = (if s.reg x ≠ 0 ∧ s.st = 0 then .start :: s.trace else s.trace) ∧
      PcAdvances s t ∧ OnlyChanges [.pc, .st, .trace] s t

/-- 60_exceptions.md R147: a tick of a timer above 0 takes 1 off it, and the sound timer emits `stop()` exactly when it
reaches 0; a tick at 0 changes nothing; a delay tick never changes ST, nor a sound tick DT, in either CPU state. -/
def Obligations.TicksCountDown : Prop :=
  ∀ s : State,
    (∃ t : State, applyEvent .delayTick s = .next t ∧ t.dt.toNat = s.dt.toNat - 1 ∧ OnlyChanges [.dt] s t) ∧
    (∃ t : State, applyEvent .soundTick s = .next t ∧ t.st.toNat = s.st.toNat - 1 ∧
      t.trace = (if s.st.toNat = 1 then .stop :: s.trace else s.trace) ∧ OnlyChanges [.st, .trace] s t)

/-! ### Keypad -/

/-- 46_keypad.md R129, R130 with R128: SKP skips when VX is the code of a DOWN key, SKNP when it is not; a VX above 0xF
names no key and reads as UP (the spec's decision D19); no key changes. -/
def Obligations.KeySkips : Prop :=
  ∀ (x : Reg) (s : State),
    HasEncoding 0xE09E 0xF0FF (.skp x) ∧ HasEncoding 0xE0A1 0xF0FF (.sknp x) ∧
    (∃ t : State, exec (.skp x) s = .next t ∧
      PcSkips (∃ k : KeyCode, k.val = (s.reg x).toNat ∧ s.key k = .down) s t ∧ OnlyChanges [.pc] s t) ∧
    (∃ t : State, exec (.sknp x) s = .next t ∧
      PcSkips (¬ ∃ k : KeyCode, k.val = (s.reg x).toNat ∧ s.key k = .down) s t ∧ OnlyChanges [.pc] s t)

/-- 46_keypad.md R131: LD_VX_K sets every key UP, latches X in `wait_reg` (the spec's decision D30) and blocks; the pc,
VX and every other part are unchanged. -/
def Obligations.AwaitKeyBlocks : Prop :=
  ∀ (x : Reg) (s : State), HasEncoding 0xF00A 0xF0FF (.ldVxK x) ∧
    ∃ t : State, exec (.ldVxK x) s = .next t ∧ (∀ k : KeyCode, t.key k = .up) ∧ t.waitReg = x ∧
      t.mode = .blockedForInput ∧ OnlyChanges [.keys, .waitReg, .mode] s t

/-- 46_keypad.md R132, R133: a blocked step with every key UP changes nothing; otherwise it writes the lowest DOWN key's
code (the spec's decision D18) to the register `wait_reg` names, returns to RUNNING and advances by 2, leaving the
keys and every other part as they were. -/
def Obligations.BlockedStepCapturesAKey : Prop :=
  ∀ s : State, s.mode = .blockedForInput →
    ((∀ k : KeyCode, s.key k = .up) → cpuStep s = .next s) ∧
    (∀ k : KeyCode, s.key k = .down → (∀ j : KeyCode, s.key j = .down → k ≤ j) →
      ∃ t : State, cpuStep s = .next t ∧ (t.reg s.waitReg).toNat = k.val ∧ t.mode = .running ∧
        RegsKept [s.waitReg] s t ∧ PcAdvances s t ∧ OnlyChanges [.regs, .mode, .pc] s t)

/-- 60_exceptions.md R143, R144: Press(k) makes key k DOWN and Release(k) makes it UP, leaving every other key and part;
Ack clears `frame_updated` and nothing else (the spec's decisions D28 and D22). -/
def Obligations.KeyAndAckEvents : Prop :=
  ∀ (k : KeyCode) (s : State),
    (∃ t : State, applyEvent (.press k) s = .next t ∧ t.key k = .down ∧
      (∀ j : KeyCode, j ≠ k → t.key j = s.key j) ∧ OnlyChanges [.keys] s t) ∧
    (∃ t : State, applyEvent (.release k) s = .next t ∧ t.key k = .up ∧
      (∀ j : KeyCode, j ≠ k → t.key j = s.key j) ∧ OnlyChanges [.keys] s t) ∧
    (∃ t : State, applyEvent .ack s = .next t ∧ t.frameUpdated = false ∧ OnlyChanges [.frameUpdated] s t)

/-! ### The cycle -/

/-- 40_cycle.md R76, R77: in RUNNING, when the next event is the CPU step and the word at the pc decodes to i, the step
is exec of i at that state with the event taken: nothing is added around exec (exec moves the pc itself), and taking an
event changes only the model's own `schedule` and `inputs`. That the next event stands in State is log entry 2. -/
def Obligations.StepRunsTheDecodedInstruction : Prop :=
  ∀ (s : State) (i : Instr), s.mode = .running → decode s.fetch = .ok i → StepsNext s →
    step s = exec i s.takeInput ∧ OnlyChanges [.schedule, .inputs] s s.takeInput

/-- 60_exceptions.md R142, 40_cycle.md R85: one step applies one event, alone: the first scheduled one, taken off the
schedule; once the schedule is used up, a CPU step or the next event of the free sequence, for ever. The schedule, its
end and the free sequence are the model's log entry 2. -/
def Obligations.StepAppliesTheNextEvent : Prop :=
  ∀ s : State,
    step s = applyEvent s.nextInput s.takeInput ∧ OnlyChanges [.schedule, .inputs] s s.takeInput ∧
    (∀ (e : Event) (es : List Event), s.schedule = e :: es →
      s.nextInput = e ∧ s.takeInput.schedule = es ∧ s.takeInput.inputs = s.inputs) ∧
    (s.schedule = [] → s.scheduleEnd = .stepsOnly → s.nextInput = .step ∧ s.takeInput = s) ∧
    (s.schedule = [] → s.scheduleEnd = .anyEvent →
      s.nextInput = Config.hostEvent s.inputs ∧ s.takeInput.schedule = [] ∧ s.takeInput.inputs = s.inputs + 1)

/-- 40_cycle.md R82: an unknown word at the pc is reported with its 16-bit value and the pc advances by 2; nothing else
changes. -/
def Obligations.UnknownWordIsReported : Prop :=
  ∀ (s : State) (r : Reject), s.mode = .running → decode s.fetch = .error r →
    ∃ t : State, cpuStep s = .next t ∧ t.trace = .diag s.fetch :: s.trace ∧ PcAdvances s t ∧
      OnlyChanges [.pc, .trace] s t

/-- 40_cycle.md R85: three fixed points of the CPU step: a jump to itself in RUNNING, 00EE with an empty stack, and
BLOCKED_FOR_INPUT with every key UP. The encoding of 00EE is the spec's decision D16. -/
def Obligations.FixedPointsOfTheStep : Prop :=
  ∀ s : State,
    (s.mode = .running → decode s.fetch = .ok (.jp s.pc) → cpuStep s = .next s) ∧
    (s.mode = .running → decode s.fetch = .ok .ret → s.stack = [] → cpuStep s = .next s) ∧
    (s.mode = .blockedForInput → (∀ k : KeyCode, s.key k = .up) → cpuStep s = .next s)

/-! ### Rules of the whole machine -/

/-- 10_state.md R20, R24, R25, R26, R35, R36, 20_memory.md R47: each instruction writes only the parts, the general
registers and the bytes of memory that the rules give it, the stored bytes counted from the old I. That FX55 and FX65
keep I is the spec's decision D12 (log entry 4); that OR, AND and XOR keep VF is D15, that CLS and DRW write
`frame_updated` D22, and that FX0A writes `wait_reg` D30 (log entry 5); the part `draws` is the model's (log entry 1). -/
def Obligations.ExecWritesOnlyItsOwn : Prop :=
  ∀ (i : Instr) (s t : State), exec i s = .next t →
    OnlyChanges (writtenParts i) s t ∧ RegsKept (writtenRegs i) s t ∧ BytesKept s.index.toNat (storedBytes i) s t

/-- 60_exceptions.md R134, 40_cycle.md R84: every instruction completes in every state, and so does every step: no
fault, no refusal, no terminal state. That CALL never finds a full stack is the spec's decision D20. -/
def Obligations.EveryStepCompletes : Prop :=
  (∀ (i : Instr) (s : State), ∃ t : State, exec i s = .next t) ∧ ∀ s : State, Completes s

/-- 10_state.md R32, 60_exceptions.md R154: only the FX0A at the pc moves RUNNING to BLOCKED_FOR_INPUT, and only a CPU
step that finds a key DOWN moves it back. -/
def Obligations.OnlyAwaitKeyChangesTheMode : Prop :=
  ∀ s t : State, step s = .next t →
    (s.mode = .running → t.mode = .blockedForInput →
      StepsNext s ∧ decode s.fetch = .ok (.ldVxK t.waitReg)) ∧
    (s.mode = .blockedForInput → t.mode = .running →
      StepsNext s ∧ ∃ k : KeyCode, s.key k = .down ∧ (t.reg s.waitReg).toNat = k.val)

/-- 10_state.md R26: only CALL and RET touch the call stack, whatever the step is. -/
def Obligations.OnlyCallAndReturnMoveTheStack : Prop :=
  ∀ s t : State, step s = .next t → t.stack ≠ s.stack →
    StepsNext s ∧ s.mode = .running ∧
      (decode s.fetch = .ok .ret ∨ ∃ nnn : Addr, decode s.fetch = .ok (.call nnn))

/-- 20_memory.md R47, R62: only FX33 and FX55 change a byte of memory, whatever the step is, and then only in the three
bytes, or the X + 1 bytes, from I on. -/
def Obligations.OnlyStoresChangeMemory : Prop :=
  ∀ (s t : State) (a : Nat), step s = .next t → t.readByte a ≠ s.readByte a →
    StepsNext s ∧ s.mode = .running ∧
      ∃ x : Reg, (decode s.fetch = .ok (.ldB x) ∧ ∃ k : Nat, k < 3 ∧ a % 4096 = (s.index.toNat + k) % 4096) ∨
        (decode s.fetch = .ok (.ldMemVx x) ∧ ∃ k : Nat, k ≤ x.val ∧ a % 4096 = (s.index.toNat + k) % 4096)

/-- 70_reset_and_hazards.md R161: DT never rises but by an FX15: "A program can rely only on DT not rising between its
own writes". -/
def Obligations.DelayRisesOnlyByAWrite : Prop :=
  ∀ s t : State, step s = .next t → s.dt.toNat < t.dt.toNat →
    StepsNext s ∧ s.mode = .running ∧ ∃ x : Reg, decode s.fetch = .ok (.ldDtVx x) ∧ t.dt = s.reg x

/-- 10_state.md R34, R33, R28: no instruction reads `frame_updated` or `wait_reg`: run from a state that differs in that
one part, an instruction completes and leaves a state that differs at most in it. For ST the same holds of every
instruction but FX18, which compares ST with 0 to decide `start()` (45_timers.md R124): its events may differ too, and
only where one of the two ST is 0 and the other is not. `frame_updated` is the spec's decision D22, `wait_reg` D30, the
edge at FX18 D29. -/
def Obligations.InstructionsIgnoreUnreadState : Prop :=
  ∀ (i : Instr) (s t : State) (b : Bool) (r : Reg) (n : Byte), exec i s = .next t →
    (∃ u : State, exec i (s.setFrameUpdated b) = .next u ∧ OnlyChanges [.frameUpdated] t u) ∧
    (∃ u : State, exec i (s.setWaitReg r) = .next u ∧ OnlyChanges [.waitReg] t u) ∧
    (∃ u : State, exec i (s.setCount .sound n) = .next u ∧ OnlyChanges [.st, .trace] t u ∧
      ((∀ x : Reg, i ≠ .ldStVx x) → u.trace = t.trace) ∧ ((s.st = 0 ↔ n = 0) → u.trace = t.trace))

/-! ### Invariants -/

/-- 70_reset_and_hazards.md R155, R156: reset is construction with a program: every core that construction gives meets
the invariants below, and `State.reset` is the core it gives for the empty program (log entry 7). The canonical form of
memory is the model's log entry 3; that the timers start at 0 and the stack empty is the spec's decision D8. -/
def Obligations.ResetMeetsTheInvariants : Prop :=
  (∀ (p : List Byte) (s : State), construct (some p) = .next s → MeetsInvariants s) ∧
  construct (some []) = .next State.reset ∧ MeetsInvariants State.reset

/-- Every step keeps memory in its canonical form (addresses rising, inside the 4096 bytes of 20_memory.md R40, nothing
listed that an unlisted address reads as). The form is the model's log entry 3. -/
def Obligations.StepKeepsMemoryCanonical : Prop :=
  ∀ s t : State, Memory.wf s.mem → step s = .next t → Memory.wf t.mem

/-- 60_exceptions.md R149: every step keeps the audio protocol: `start()` and `stop()` alternate, beginning with
`start()`, and the tone is on exactly when ST is above 0. No edge on a re-arm is the spec's decision D29. -/
def Obligations.StepKeepsTheAudioProtocol : Prop :=
  ∀ s t : State, AudioAgrees s → step s = .next t → AudioAgrees t

/-- 10_state.md R33: while the CPU is blocked the pc points at the FX0A whose X is in `wait_reg`, so latching X is
equivalent to fetching it again (the spec's decision D30); every step keeps this. -/
def Obligations.StepKeepsTheAwaitKeyAtThePc : Prop :=
  ∀ s t : State, WaitsAtAwaitKey s → step s = .next t → WaitsAtAwaitKey t

/-- 10_state.md R26, 41_flow.md R88: every step keeps the call-stack entries 12-bit program-counter values (the masking
of the pushed value is the spec's decision D21). -/
def Obligations.StepKeepsStackAddresses : Prop :=
  ∀ s t : State, StackHoldsAddresses s → step s = .next t → StackHoldsAddresses t

/-! ### Reset and construction -/

/-- 10_state.md R39, 70_reset_and_hazards.md R155, R156: the state after construction with the empty program, which
`State.reset` is (log entry 7), so no program byte stands at 0x200. The registers, I and RUNNING are the source's; the
stack, timers and keys are the spec's decision D8, the frame D7, the pc D1, `frame_updated` D22, `wait_reg` D30, the
font bytes D2 and the other bytes D6; the empty trace is log entry 9. -/
def Obligations.ResetState : Prop :=
  (∀ r : Reg, State.reset.reg r = 0) ∧ State.reset.pc = 0x200 ∧ State.reset.index = 0 ∧
  State.reset.mode = .running ∧ State.reset.stack = [] ∧ State.reset.dt = 0 ∧ State.reset.st = 0 ∧
  State.reset.audible = false ∧ (∀ k : KeyCode, State.reset.key k = .up) ∧
  (∀ x y : Nat, State.reset.frameRead x y = .off) ∧ State.reset.frameUpdated = false ∧
  State.reset.waitReg = 0 ∧ State.reset.trace = [] ∧
  (∀ k : Nat, k < 80 → State.reset.readByte k = Params.fontTable.getD k 0) ∧
  (∀ a : Nat, 80 ≤ a → a < 4096 → State.reset.readByte a = 0)

/-- 70_reset_and_hazards.md R155, R156: construction with a program that fits stores byte k at 0x200 + k and leaves
everything else at its reset value; a program longer than 3584 bytes, or a failure the loader reports, builds no core
(the spec's decisions D1 and D23). -/
def Obligations.ConstructionLoadsTheProgram : Prop :=
  (∀ p : List Byte, p.length ≤ 3584 → ∃ s : State, construct (some p) = .next s ∧
    (∀ k : Nat, k < p.length → s.readByte (0x200 + k) = p.getD k 0) ∧
    BytesKept 0x200 p.length State.reset s ∧ OnlyChanges [.mem] State.reset s) ∧
  (∀ p : List Byte, 3584 < p.length → construct (some p) = .refused .loadFailure) ∧
  construct none = .refused .loadFailure
end

