-- ==== Sys2Proof/Laws/Decode.lean ====
section
/-! SUPPORT. The fields of an instruction word as numbers, the fields of an assembled word, and that a word is the
assembly of its fields (30_encoding.md R64, R66). -/

namespace Sys2Proof

/-! ### Fields as numbers -/

theorem opField_toNat (w : Word) : (opField w).toNat = w.toNat / 4096 := by
  have := w.isLt
  simp only [opField, BitVec.extractLsb'_toNat, Nat.shiftRight_eq_div_pow]; omega

theorem xField_val (w : Word) : (xField w).val = w.toNat / 256 % 16 := by
  have : (xField w).val = (w.extractLsb' 8 4).toNat := rfl
  simp only [this, BitVec.extractLsb'_toNat, Nat.shiftRight_eq_div_pow]

theorem yField_val (w : Word) : (yField w).val = w.toNat / 16 % 16 := by
  have : (yField w).val = (w.extractLsb' 4 4).toNat := rfl
  simp only [this, BitVec.extractLsb'_toNat, Nat.shiftRight_eq_div_pow]

theorem nField_toNat (w : Word) : (nField w).toNat = w.toNat % 16 := by
  simp only [nField, BitVec.extractLsb'_toNat, Nat.shiftRight_eq_div_pow]; omega

theorem nnField_toNat (w : Word) : (nnField w).toNat = w.toNat % 256 := by
  simp only [nnField, BitVec.extractLsb'_toNat, Nat.shiftRight_eq_div_pow]; omega

theorem nnnField_toNat (w : Word) : (nnnField w).toNat = w.toNat % 4096 := by
  simp only [nnnField, BitVec.extractLsb'_toNat, Nat.shiftRight_eq_div_pow]; omega

/-! ### Assembled words as numbers -/

/-- Appending bit vectors puts the first in the high part (00_scope.md R10). -/
theorem append_toNat {k m : Nat} (a : BitVec k) (b : BitVec m) : (a ++ b).toNat = a.toNat * 2 ^ m + b.toNat := by
  rw [BitVec.toNat_append, Nat.shiftLeft_eq, Nat.mul_comm, Nat.two_pow_add_eq_or_of_lt b.isLt]

theorem formatNNN_toNat (op : Nibble) (nnn : Addr) :
    (formatNNN op nnn).toNat = op.toNat * 4096 + nnn.toNat := append_toNat op nnn

theorem formatXNN_toNat (op : Nibble) (x : Reg) (nn : Byte) :
    (formatXNN op x nn).toNat = op.toNat * 4096 + x.val * 256 + nn.toNat := by
  have h1 := append_toNat (op ++ x.toNibble) nn
  have h2 := append_toNat op x.toNibble
  have h3 : x.toNibble.toNat = x.val := rfl
  have h4 : (formatXNN op x nn).toNat = (op ++ x.toNibble ++ nn).toNat := rfl
  omega

theorem formatXYN_toNat (op : Nibble) (x y : Reg) (n : Nibble) :
    (formatXYN op x y n).toNat = op.toNat * 4096 + x.val * 256 + y.val * 16 + n.toNat := by
  have h1 := append_toNat (op ++ x.toNibble ++ y.toNibble) n
  have h2 := append_toNat (op ++ x.toNibble) y.toNibble
  have h3 := append_toNat op x.toNibble
  have h4 : x.toNibble.toNat = x.val := rfl
  have h5 : y.toNibble.toNat = y.val := rfl
  have h6 : (formatXYN op x y n).toNat = (op ++ x.toNibble ++ y.toNibble ++ n).toNat := rfl
  omega

/-! ### The fields of an assembled word -/

section
variable (op n : Nibble) (x y : Reg) (nn : Byte) (nnn : Addr)

theorem opField_formatNNN : opField (formatNNN op nnn) = op := by
  apply BitVec.eq_of_toNat_eq; rw [opField_toNat, formatNNN_toNat]; omega
theorem nnnField_formatNNN : nnnField (formatNNN op nnn) = nnn := by
  apply BitVec.eq_of_toNat_eq; rw [nnnField_toNat, formatNNN_toNat]; omega

theorem opField_formatXNN : opField (formatXNN op x nn) = op := by
  apply BitVec.eq_of_toNat_eq; rw [opField_toNat, formatXNN_toNat]; omega
theorem xField_formatXNN : xField (formatXNN op x nn) = x := by
  apply Fin.ext; rw [xField_val, formatXNN_toNat]; omega
theorem nnField_formatXNN : nnField (formatXNN op x nn) = nn := by
  apply BitVec.eq_of_toNat_eq; rw [nnField_toNat, formatXNN_toNat]; omega

theorem opField_formatXYN : opField (formatXYN op x y n) = op := by
  apply BitVec.eq_of_toNat_eq; rw [opField_toNat, formatXYN_toNat]; omega
theorem xField_formatXYN : xField (formatXYN op x y n) = x := by
  apply Fin.ext; rw [xField_val, formatXYN_toNat]; omega
theorem yField_formatXYN : yField (formatXYN op x y n) = y := by
  apply Fin.ext; rw [yField_val, formatXYN_toNat]; omega
theorem nField_formatXYN : nField (formatXYN op x y n) = n := by
  apply BitVec.eq_of_toNat_eq; rw [nField_toNat, formatXYN_toNat]; omega

end

/-! ### A word is the assembly of its fields -/

theorem formatNNN_fields (w : Word) : formatNNN (opField w) (nnnField w) = w := by
  apply BitVec.eq_of_toNat_eq; rw [formatNNN_toNat, opField_toNat, nnnField_toNat]; omega

theorem formatXNN_fields (w : Word) : formatXNN (opField w) (xField w) (nnField w) = w := by
  apply BitVec.eq_of_toNat_eq; rw [formatXNN_toNat, opField_toNat, xField_val, nnField_toNat]; omega

theorem formatXYN_fields (w : Word) : formatXYN (opField w) (xField w) (yField w) (nField w) = w := by
  apply BitVec.eq_of_toNat_eq; rw [formatXYN_toNat, opField_toNat, xField_val, yField_val, nField_toNat]; omega

/-! ### Masking an assembled word -/

theorem formatNNN_family (op : Nibble) (nnn : Addr) : formatNNN op nnn &&& 0xF000#16 = formatNNN op 0 := by
  have h : formatNNN op nnn &&& (0xF#4 ++ 0#12) = (op &&& 0xF#4) ++ (nnn &&& 0#12) := BitVec.and_append
  have e : op &&& 0xF#4 = op := BitVec.and_allOnes
  rw [e, BitVec.and_zero] at h
  exact h

theorem formatXNN_function (op : Nibble) (x : Reg) (nn : Byte) :
    formatXNN op x nn &&& 0xF0FF#16 = formatXNN op 0 nn := by
  have h : formatXNN op x nn &&& ((0xF#4 ++ 0#4) ++ 0xFF#8) = ((op ++ x.toNibble) &&& (0xF#4 ++ 0#4)) ++ (nn &&& 0xFF#8) :=
    BitVec.and_append
  have e1 : op &&& 0xF#4 = op := BitVec.and_allOnes
  have e2 : nn &&& 0xFF#8 = nn := BitVec.and_allOnes
  rw [BitVec.and_append, e1, e2, BitVec.and_zero] at h
  exact h

theorem formatXYN_function (op : Nibble) (x y : Reg) (n : Nibble) :
    formatXYN op x y n &&& 0xF00F#16 = formatXYN op 0 0 n := by
  have h : formatXYN op x y n &&& (((0xF#4 ++ 0#4) ++ 0#4) ++ 0xF#4) =
      ((op ++ x.toNibble ++ y.toNibble) &&& (0xF#4 ++ 0#4 ++ 0#4)) ++ (n &&& 0xF#4) := BitVec.and_append
  have e1 : op &&& 0xF#4 = op := BitVec.and_allOnes
  have e2 : n &&& 0xF#4 = n := BitVec.and_allOnes
  rw [BitVec.and_append, BitVec.and_append, e1, e2, BitVec.and_zero, BitVec.and_zero] at h
  exact h

/-- A word under the family mask keeps its family. -/
theorem and_family (w : Word) : w &&& 0xF000#16 = formatNNN (opField w) 0 := by
  conv_lhs => rw [← formatNNN_fields w]
  exact formatNNN_family _ _

/-- A word under the mask of formats XFF keeps its family and its low byte. -/
theorem and_functionByte (w : Word) : w &&& 0xF0FF#16 = formatXNN (opField w) 0 (nnField w) := by
  conv_lhs => rw [← formatXNN_fields w]
  exact formatXNN_function _ _ _

/-- A word under the mask of format XYF keeps its family and its low nibble. -/
theorem and_functionNibble (w : Word) : w &&& 0xF00F#16 = formatXYN (opField w) 0 0 (nField w) := by
  conv_lhs => rw [← formatXYN_fields w]
  exact formatXYN_function _ _ _ _

/-- The three masks of the opcode map as conditions on the number (30_encoding.md R68). -/
theorem and_family_iff (w c : Word) : w &&& 0xF000#16 = c ↔ w.toNat / 4096 * 4096 = c.toNat := by
  rw [and_family, ← BitVec.toNat_inj, formatNNN_toNat, opField_toNat]; simp

theorem and_functionByte_iff (w c : Word) :
    w &&& 0xF0FF#16 = c ↔ w.toNat / 4096 * 4096 + w.toNat % 256 = c.toNat := by
  rw [and_functionByte, ← BitVec.toNat_inj, formatXNN_toNat, opField_toNat, nnField_toNat]; simp

theorem and_functionNibble_iff (w c : Word) :
    w &&& 0xF00F#16 = c ↔ w.toNat / 4096 * 4096 + w.toNat % 16 = c.toNat := by
  rw [and_functionNibble, ← BitVec.toNat_inj, formatXYN_toNat, opField_toNat, nField_toNat]; simp

/-! ### The last nibble -/

theorem lastNibbleOk_iff (n : Nibble) : lastNibbleOk n = (n == 0#4) := by simp [lastNibbleOk]

end Sys2Proof
end

