-- ==== Sys2Proof/Laws/State.lean ====
section
/-! SUPPORT. For every named update of the state, one lemma per field and per accessor: what it holds afterwards. A
proof about an instruction cites these and never unfolds a record update. -/

namespace Sys2Proof.Machine

/-! ### The field an update writes, through its accessor -/

@[simp] theorem State.setReg_reg (s : State) (r q : Reg) (b : Byte) :
    (s.setReg r b).reg q = if q = r then b else s.reg q := by
  simp only [State.reg, State.setReg, Fin.getElem_fin, Vector.getElem_set, Fin.val_inj]
  simp only [eq_comm]

@[simp] theorem State.setFlag_reg (s : State) (c : Bool) (q : Reg) :
    (s.setFlag c).reg q = if q = Reg.VF then (if c then 1 else 0) else s.reg q := by
  simp only [State.setFlag, State.setReg_reg]

@[simp] theorem State.setKey_key (s : State) (k q : KeyCode) (c : KeyState) :
    (s.setKey k c).key q = if q = k then c else s.key q := by
  simp only [State.key, State.setKey, Fin.getElem_fin, Vector.getElem_set, Fin.val_inj]
  simp only [eq_comm]

@[simp] theorem State.clearKeys_key (s : State) (q : KeyCode) : s.clearKeys.key q = .up := by
  simp [State.key, State.clearKeys]

@[simp] theorem State.setFrame_frameRead (s : State) (f : Frame) (x y : Nat) :
    (s.setFrame f).frameRead x y = f.get x y := rfl

@[simp] theorem State.clearFrame_frameRead (s : State) (x y : Nat) : s.clearFrame.frameRead x y = .off := by
  simp [State.clearFrame, Frame.get]

@[simp] theorem State.setCount_count (s : State) (t u : Timer) (n : Byte) :
    (s.setCount t n).count u = if u = t then n else s.count u := by
  cases t <;> cases u <;> rfl

@[simp] theorem State.emitEdge_count (s : State) (t u : Timer) (o : Output) :
    (s.emitEdge t o).count u = s.count u := by
  cases t <;> cases u <;> rfl

/-! ### One lemma per field and accessor -/

/-! #### `State.setReg` -/

@[simp] theorem State.setReg_v (s : State) (r : Reg) (b : Byte) : (s.setReg r b).v = s.v.set r b := rfl
@[simp] theorem State.setReg_pc (s : State) (r : Reg) (b : Byte) : (s.setReg r b).pc = s.pc := rfl
@[simp] theorem State.setReg_index (s : State) (r : Reg) (b : Byte) : (s.setReg r b).index = s.index := rfl
@[simp] theorem State.setReg_stack (s : State) (r : Reg) (b : Byte) : (s.setReg r b).stack = s.stack := rfl
@[simp] theorem State.setReg_dt (s : State) (r : Reg) (b : Byte) : (s.setReg r b).dt = s.dt := rfl
@[simp] theorem State.setReg_st (s : State) (r : Reg) (b : Byte) : (s.setReg r b).st = s.st := rfl
@[simp] theorem State.setReg_keys (s : State) (r : Reg) (b : Byte) : (s.setReg r b).keys = s.keys := rfl
@[simp] theorem State.setReg_frame (s : State) (r : Reg) (b : Byte) : (s.setReg r b).frame = s.frame := rfl
@[simp] theorem State.setReg_mode (s : State) (r : Reg) (b : Byte) : (s.setReg r b).mode = s.mode := rfl
@[simp] theorem State.setReg_waitReg (s : State) (r : Reg) (b : Byte) : (s.setReg r b).waitReg = s.waitReg := rfl
@[simp] theorem State.setReg_frameUpdated (s : State) (r : Reg) (b : Byte) : (s.setReg r b).frameUpdated = s.frameUpdated := rfl
@[simp] theorem State.setReg_mem (s : State) (r : Reg) (b : Byte) : (s.setReg r b).mem = s.mem := rfl
@[simp] theorem State.setReg_trace (s : State) (r : Reg) (b : Byte) : (s.setReg r b).trace = s.trace := rfl
@[simp] theorem State.setReg_draws (s : State) (r : Reg) (b : Byte) : (s.setReg r b).draws = s.draws := rfl
@[simp] theorem State.setReg_schedule (s : State) (r : Reg) (b : Byte) : (s.setReg r b).schedule = s.schedule := rfl
@[simp] theorem State.setReg_scheduleEnd (s : State) (r : Reg) (b : Byte) : (s.setReg r b).scheduleEnd = s.scheduleEnd := rfl
@[simp] theorem State.setReg_inputs (s : State) (r : Reg) (b : Byte) : (s.setReg r b).inputs = s.inputs := rfl
@[simp] theorem State.setReg_readByte (s : State) (r : Reg) (b : Byte) (q : Nat) : (s.setReg r b).readByte q = s.readByte q := rfl
@[simp] theorem State.setReg_key (s : State) (r : Reg) (b : Byte) (q : KeyCode) : (s.setReg r b).key q = s.key q := rfl
@[simp] theorem State.setReg_frameRead (s : State) (r : Reg) (b : Byte) (q u : Nat) : (s.setReg r b).frameRead q u = s.frameRead q u := rfl

/-! #### `State.setFlag` -/

@[simp] theorem State.setFlag_v (s : State) (c : Bool) : (s.setFlag c).v = s.v.set Reg.VF (if c then 1 else 0) := rfl
@[simp] theorem State.setFlag_pc (s : State) (c : Bool) : (s.setFlag c).pc = s.pc := rfl
@[simp] theorem State.setFlag_index (s : State) (c : Bool) : (s.setFlag c).index = s.index := rfl
@[simp] theorem State.setFlag_stack (s : State) (c : Bool) : (s.setFlag c).stack = s.stack := rfl
@[simp] theorem State.setFlag_dt (s : State) (c : Bool) : (s.setFlag c).dt = s.dt := rfl
@[simp] theorem State.setFlag_st (s : State) (c : Bool) : (s.setFlag c).st = s.st := rfl
@[simp] theorem State.setFlag_keys (s : State) (c : Bool) : (s.setFlag c).keys = s.keys := rfl
@[simp] theorem State.setFlag_frame (s : State) (c : Bool) : (s.setFlag c).frame = s.frame := rfl
@[simp] theorem State.setFlag_mode (s : State) (c : Bool) : (s.setFlag c).mode = s.mode := rfl
@[simp] theorem State.setFlag_waitReg (s : State) (c : Bool) : (s.setFlag c).waitReg = s.waitReg := rfl
@[simp] theorem State.setFlag_frameUpdated (s : State) (c : Bool) : (s.setFlag c).frameUpdated = s.frameUpdated := rfl
@[simp] theorem State.setFlag_mem (s : State) (c : Bool) : (s.setFlag c).mem = s.mem := rfl
@[simp] theorem State.setFlag_trace (s : State) (c : Bool) : (s.setFlag c).trace = s.trace := rfl
@[simp] theorem State.setFlag_draws (s : State) (c : Bool) : (s.setFlag c).draws = s.draws := rfl
@[simp] theorem State.setFlag_schedule (s : State) (c : Bool) : (s.setFlag c).schedule = s.schedule := rfl
@[simp] theorem State.setFlag_scheduleEnd (s : State) (c : Bool) : (s.setFlag c).scheduleEnd = s.scheduleEnd := rfl
@[simp] theorem State.setFlag_inputs (s : State) (c : Bool) : (s.setFlag c).inputs = s.inputs := rfl
@[simp] theorem State.setFlag_readByte (s : State) (c : Bool) (q : Nat) : (s.setFlag c).readByte q = s.readByte q := rfl
@[simp] theorem State.setFlag_key (s : State) (c : Bool) (q : KeyCode) : (s.setFlag c).key q = s.key q := rfl
@[simp] theorem State.setFlag_frameRead (s : State) (c : Bool) (q u : Nat) : (s.setFlag c).frameRead q u = s.frameRead q u := rfl

/-! #### `State.setPc` -/

@[simp] theorem State.setPc_v (s : State) (a : Addr) : (s.setPc a).v = s.v := rfl
@[simp] theorem State.setPc_pc (s : State) (a : Addr) : (s.setPc a).pc = a := rfl
@[simp] theorem State.setPc_index (s : State) (a : Addr) : (s.setPc a).index = s.index := rfl
@[simp] theorem State.setPc_stack (s : State) (a : Addr) : (s.setPc a).stack = s.stack := rfl
@[simp] theorem State.setPc_dt (s : State) (a : Addr) : (s.setPc a).dt = s.dt := rfl
@[simp] theorem State.setPc_st (s : State) (a : Addr) : (s.setPc a).st = s.st := rfl
@[simp] theorem State.setPc_keys (s : State) (a : Addr) : (s.setPc a).keys = s.keys := rfl
@[simp] theorem State.setPc_frame (s : State) (a : Addr) : (s.setPc a).frame = s.frame := rfl
@[simp] theorem State.setPc_mode (s : State) (a : Addr) : (s.setPc a).mode = s.mode := rfl
@[simp] theorem State.setPc_waitReg (s : State) (a : Addr) : (s.setPc a).waitReg = s.waitReg := rfl
@[simp] theorem State.setPc_frameUpdated (s : State) (a : Addr) : (s.setPc a).frameUpdated = s.frameUpdated := rfl
@[simp] theorem State.setPc_mem (s : State) (a : Addr) : (s.setPc a).mem = s.mem := rfl
@[simp] theorem State.setPc_trace (s : State) (a : Addr) : (s.setPc a).trace = s.trace := rfl
@[simp] theorem State.setPc_draws (s : State) (a : Addr) : (s.setPc a).draws = s.draws := rfl
@[simp] theorem State.setPc_schedule (s : State) (a : Addr) : (s.setPc a).schedule = s.schedule := rfl
@[simp] theorem State.setPc_scheduleEnd (s : State) (a : Addr) : (s.setPc a).scheduleEnd = s.scheduleEnd := rfl
@[simp] theorem State.setPc_inputs (s : State) (a : Addr) : (s.setPc a).inputs = s.inputs := rfl
@[simp] theorem State.setPc_reg (s : State) (a : Addr) (q : Reg) : (s.setPc a).reg q = s.reg q := rfl
@[simp] theorem State.setPc_readByte (s : State) (a : Addr) (q : Nat) : (s.setPc a).readByte q = s.readByte q := rfl
@[simp] theorem State.setPc_key (s : State) (a : Addr) (q : KeyCode) : (s.setPc a).key q = s.key q := rfl
@[simp] theorem State.setPc_frameRead (s : State) (a : Addr) (q u : Nat) : (s.setPc a).frameRead q u = s.frameRead q u := rfl

/-! #### `State.advance` -/

@[simp] theorem State.advance_v (s : State) : s.advance.v = s.v := rfl
@[simp] theorem State.advance_pc (s : State) : s.advance.pc = s.pc + 2 := rfl
@[simp] theorem State.advance_index (s : State) : s.advance.index = s.index := rfl
@[simp] theorem State.advance_stack (s : State) : s.advance.stack = s.stack := rfl
@[simp] theorem State.advance_dt (s : State) : s.advance.dt = s.dt := rfl
@[simp] theorem State.advance_st (s : State) : s.advance.st = s.st := rfl
@[simp] theorem State.advance_keys (s : State) : s.advance.keys = s.keys := rfl
@[simp] theorem State.advance_frame (s : State) : s.advance.frame = s.frame := rfl
@[simp] theorem State.advance_mode (s : State) : s.advance.mode = s.mode := rfl
@[simp] theorem State.advance_waitReg (s : State) : s.advance.waitReg = s.waitReg := rfl
@[simp] theorem State.advance_frameUpdated (s : State) : s.advance.frameUpdated = s.frameUpdated := rfl
@[simp] theorem State.advance_mem (s : State) : s.advance.mem = s.mem := rfl
@[simp] theorem State.advance_trace (s : State) : s.advance.trace = s.trace := rfl
@[simp] theorem State.advance_draws (s : State) : s.advance.draws = s.draws := rfl
@[simp] theorem State.advance_schedule (s : State) : s.advance.schedule = s.schedule := rfl
@[simp] theorem State.advance_scheduleEnd (s : State) : s.advance.scheduleEnd = s.scheduleEnd := rfl
@[simp] theorem State.advance_inputs (s : State) : s.advance.inputs = s.inputs := rfl
@[simp] theorem State.advance_reg (s : State) (q : Reg) : s.advance.reg q = s.reg q := rfl
@[simp] theorem State.advance_readByte (s : State) (q : Nat) : s.advance.readByte q = s.readByte q := rfl
@[simp] theorem State.advance_key (s : State) (q : KeyCode) : s.advance.key q = s.key q := rfl
@[simp] theorem State.advance_frameRead (s : State) (q u : Nat) : s.advance.frameRead q u = s.frameRead q u := rfl

/-! #### `State.skip` -/

@[simp] theorem State.skip_v (s : State) (c : Bool) : (s.skip c).v = s.v := rfl
@[simp] theorem State.skip_pc (s : State) (c : Bool) : (s.skip c).pc = s.pc + if c then 4 else 2 := rfl
@[simp] theorem State.skip_index (s : State) (c : Bool) : (s.skip c).index = s.index := rfl
@[simp] theorem State.skip_stack (s : State) (c : Bool) : (s.skip c).stack = s.stack := rfl
@[simp] theorem State.skip_dt (s : State) (c : Bool) : (s.skip c).dt = s.dt := rfl
@[simp] theorem State.skip_st (s : State) (c : Bool) : (s.skip c).st = s.st := rfl
@[simp] theorem State.skip_keys (s : State) (c : Bool) : (s.skip c).keys = s.keys := rfl
@[simp] theorem State.skip_frame (s : State) (c : Bool) : (s.skip c).frame = s.frame := rfl
@[simp] theorem State.skip_mode (s : State) (c : Bool) : (s.skip c).mode = s.mode := rfl
@[simp] theorem State.skip_waitReg (s : State) (c : Bool) : (s.skip c).waitReg = s.waitReg := rfl
@[simp] theorem State.skip_frameUpdated (s : State) (c : Bool) : (s.skip c).frameUpdated = s.frameUpdated := rfl
@[simp] theorem State.skip_mem (s : State) (c : Bool) : (s.skip c).mem = s.mem := rfl
@[simp] theorem State.skip_trace (s : State) (c : Bool) : (s.skip c).trace = s.trace := rfl
@[simp] theorem State.skip_draws (s : State) (c : Bool) : (s.skip c).draws = s.draws := rfl
@[simp] theorem State.skip_schedule (s : State) (c : Bool) : (s.skip c).schedule = s.schedule := rfl
@[simp] theorem State.skip_scheduleEnd (s : State) (c : Bool) : (s.skip c).scheduleEnd = s.scheduleEnd := rfl
@[simp] theorem State.skip_inputs (s : State) (c : Bool) : (s.skip c).inputs = s.inputs := rfl
@[simp] theorem State.skip_reg (s : State) (c : Bool) (q : Reg) : (s.skip c).reg q = s.reg q := rfl
@[simp] theorem State.skip_readByte (s : State) (c : Bool) (q : Nat) : (s.skip c).readByte q = s.readByte q := rfl
@[simp] theorem State.skip_key (s : State) (c : Bool) (q : KeyCode) : (s.skip c).key q = s.key q := rfl
@[simp] theorem State.skip_frameRead (s : State) (c : Bool) (q u : Nat) : (s.skip c).frameRead q u = s.frameRead q u := rfl

/-! #### `State.setIndex` -/

@[simp] theorem State.setIndex_v (s : State) (a : Addr) : (s.setIndex a).v = s.v := rfl
@[simp] theorem State.setIndex_pc (s : State) (a : Addr) : (s.setIndex a).pc = s.pc := rfl
@[simp] theorem State.setIndex_index (s : State) (a : Addr) : (s.setIndex a).index = a := rfl
@[simp] theorem State.setIndex_stack (s : State) (a : Addr) : (s.setIndex a).stack = s.stack := rfl
@[simp] theorem State.setIndex_dt (s : State) (a : Addr) : (s.setIndex a).dt = s.dt := rfl
@[simp] theorem State.setIndex_st (s : State) (a : Addr) : (s.setIndex a).st = s.st := rfl
@[simp] theorem State.setIndex_keys (s : State) (a : Addr) : (s.setIndex a).keys = s.keys := rfl
@[simp] theorem State.setIndex_frame (s : State) (a : Addr) : (s.setIndex a).frame = s.frame := rfl
@[simp] theorem State.setIndex_mode (s : State) (a : Addr) : (s.setIndex a).mode = s.mode := rfl
@[simp] theorem State.setIndex_waitReg (s : State) (a : Addr) : (s.setIndex a).waitReg = s.waitReg := rfl
@[simp] theorem State.setIndex_frameUpdated (s : State) (a : Addr) : (s.setIndex a).frameUpdated = s.frameUpdated := rfl
@[simp] theorem State.setIndex_mem (s : State) (a : Addr) : (s.setIndex a).mem = s.mem := rfl
@[simp] theorem State.setIndex_trace (s : State) (a : Addr) : (s.setIndex a).trace = s.trace := rfl
@[simp] theorem State.setIndex_draws (s : State) (a : Addr) : (s.setIndex a).draws = s.draws := rfl
@[simp] theorem State.setIndex_schedule (s : State) (a : Addr) : (s.setIndex a).schedule = s.schedule := rfl
@[simp] theorem State.setIndex_scheduleEnd (s : State) (a : Addr) : (s.setIndex a).scheduleEnd = s.scheduleEnd := rfl
@[simp] theorem State.setIndex_inputs (s : State) (a : Addr) : (s.setIndex a).inputs = s.inputs := rfl
@[simp] theorem State.setIndex_reg (s : State) (a : Addr) (q : Reg) : (s.setIndex a).reg q = s.reg q := rfl
@[simp] theorem State.setIndex_readByte (s : State) (a : Addr) (q : Nat) : (s.setIndex a).readByte q = s.readByte q := rfl
@[simp] theorem State.setIndex_key (s : State) (a : Addr) (q : KeyCode) : (s.setIndex a).key q = s.key q := rfl
@[simp] theorem State.setIndex_frameRead (s : State) (a : Addr) (q u : Nat) : (s.setIndex a).frameRead q u = s.frameRead q u := rfl

/-! #### `State.writeByte` -/

@[simp] theorem State.writeByte_v (s : State) (a : Nat) (b : Byte) : (s.writeByte a b).v = s.v := rfl
@[simp] theorem State.writeByte_pc (s : State) (a : Nat) (b : Byte) : (s.writeByte a b).pc = s.pc := rfl
@[simp] theorem State.writeByte_index (s : State) (a : Nat) (b : Byte) : (s.writeByte a b).index = s.index := rfl
@[simp] theorem State.writeByte_stack (s : State) (a : Nat) (b : Byte) : (s.writeByte a b).stack = s.stack := rfl
@[simp] theorem State.writeByte_dt (s : State) (a : Nat) (b : Byte) : (s.writeByte a b).dt = s.dt := rfl
@[simp] theorem State.writeByte_st (s : State) (a : Nat) (b : Byte) : (s.writeByte a b).st = s.st := rfl
@[simp] theorem State.writeByte_keys (s : State) (a : Nat) (b : Byte) : (s.writeByte a b).keys = s.keys := rfl
@[simp] theorem State.writeByte_frame (s : State) (a : Nat) (b : Byte) : (s.writeByte a b).frame = s.frame := rfl
@[simp] theorem State.writeByte_mode (s : State) (a : Nat) (b : Byte) : (s.writeByte a b).mode = s.mode := rfl
@[simp] theorem State.writeByte_waitReg (s : State) (a : Nat) (b : Byte) : (s.writeByte a b).waitReg = s.waitReg := rfl
@[simp] theorem State.writeByte_frameUpdated (s : State) (a : Nat) (b : Byte) : (s.writeByte a b).frameUpdated = s.frameUpdated := rfl
@[simp] theorem State.writeByte_mem (s : State) (a : Nat) (b : Byte) : (s.writeByte a b).mem = Memory.write s.mem (a % Config.memSize) b := rfl
@[simp] theorem State.writeByte_trace (s : State) (a : Nat) (b : Byte) : (s.writeByte a b).trace = s.trace := rfl
@[simp] theorem State.writeByte_draws (s : State) (a : Nat) (b : Byte) : (s.writeByte a b).draws = s.draws := rfl
@[simp] theorem State.writeByte_schedule (s : State) (a : Nat) (b : Byte) : (s.writeByte a b).schedule = s.schedule := rfl
@[simp] theorem State.writeByte_scheduleEnd (s : State) (a : Nat) (b : Byte) : (s.writeByte a b).scheduleEnd = s.scheduleEnd := rfl
@[simp] theorem State.writeByte_inputs (s : State) (a : Nat) (b : Byte) : (s.writeByte a b).inputs = s.inputs := rfl
@[simp] theorem State.writeByte_reg (s : State) (a : Nat) (b : Byte) (q : Reg) : (s.writeByte a b).reg q = s.reg q := rfl
@[simp] theorem State.writeByte_key (s : State) (a : Nat) (b : Byte) (q : KeyCode) : (s.writeByte a b).key q = s.key q := rfl
@[simp] theorem State.writeByte_frameRead (s : State) (a : Nat) (b : Byte) (q u : Nat) : (s.writeByte a b).frameRead q u = s.frameRead q u := rfl

/-! #### `State.emit` -/

@[simp] theorem State.emit_v (s : State) (o : Output) : (s.emit o).v = s.v := rfl
@[simp] theorem State.emit_pc (s : State) (o : Output) : (s.emit o).pc = s.pc := rfl
@[simp] theorem State.emit_index (s : State) (o : Output) : (s.emit o).index = s.index := rfl
@[simp] theorem State.emit_stack (s : State) (o : Output) : (s.emit o).stack = s.stack := rfl
@[simp] theorem State.emit_dt (s : State) (o : Output) : (s.emit o).dt = s.dt := rfl
@[simp] theorem State.emit_st (s : State) (o : Output) : (s.emit o).st = s.st := rfl
@[simp] theorem State.emit_keys (s : State) (o : Output) : (s.emit o).keys = s.keys := rfl
@[simp] theorem State.emit_frame (s : State) (o : Output) : (s.emit o).frame = s.frame := rfl
@[simp] theorem State.emit_mode (s : State) (o : Output) : (s.emit o).mode = s.mode := rfl
@[simp] theorem State.emit_waitReg (s : State) (o : Output) : (s.emit o).waitReg = s.waitReg := rfl
@[simp] theorem State.emit_frameUpdated (s : State) (o : Output) : (s.emit o).frameUpdated = s.frameUpdated := rfl
@[simp] theorem State.emit_mem (s : State) (o : Output) : (s.emit o).mem = s.mem := rfl
@[simp] theorem State.emit_trace (s : State) (o : Output) : (s.emit o).trace = o :: s.trace := rfl
@[simp] theorem State.emit_draws (s : State) (o : Output) : (s.emit o).draws = s.draws := rfl
@[simp] theorem State.emit_schedule (s : State) (o : Output) : (s.emit o).schedule = s.schedule := rfl
@[simp] theorem State.emit_scheduleEnd (s : State) (o : Output) : (s.emit o).scheduleEnd = s.scheduleEnd := rfl
@[simp] theorem State.emit_inputs (s : State) (o : Output) : (s.emit o).inputs = s.inputs := rfl
@[simp] theorem State.emit_reg (s : State) (o : Output) (q : Reg) : (s.emit o).reg q = s.reg q := rfl
@[simp] theorem State.emit_readByte (s : State) (o : Output) (q : Nat) : (s.emit o).readByte q = s.readByte q := rfl
@[simp] theorem State.emit_key (s : State) (o : Output) (q : KeyCode) : (s.emit o).key q = s.key q := rfl
@[simp] theorem State.emit_frameRead (s : State) (o : Output) (q u : Nat) : (s.emit o).frameRead q u = s.frameRead q u := rfl

/-! #### `State.countDraw` -/

@[simp] theorem State.countDraw_v (s : State) : s.countDraw.v = s.v := rfl
@[simp] theorem State.countDraw_pc (s : State) : s.countDraw.pc = s.pc := rfl
@[simp] theorem State.countDraw_index (s : State) : s.countDraw.index = s.index := rfl
@[simp] theorem State.countDraw_stack (s : State) : s.countDraw.stack = s.stack := rfl
@[simp] theorem State.countDraw_dt (s : State) : s.countDraw.dt = s.dt := rfl
@[simp] theorem State.countDraw_st (s : State) : s.countDraw.st = s.st := rfl
@[simp] theorem State.countDraw_keys (s : State) : s.countDraw.keys = s.keys := rfl
@[simp] theorem State.countDraw_frame (s : State) : s.countDraw.frame = s.frame := rfl
@[simp] theorem State.countDraw_mode (s : State) : s.countDraw.mode = s.mode := rfl
@[simp] theorem State.countDraw_waitReg (s : State) : s.countDraw.waitReg = s.waitReg := rfl
@[simp] theorem State.countDraw_frameUpdated (s : State) : s.countDraw.frameUpdated = s.frameUpdated := rfl
@[simp] theorem State.countDraw_mem (s : State) : s.countDraw.mem = s.mem := rfl
@[simp] theorem State.countDraw_trace (s : State) : s.countDraw.trace = s.trace := rfl
@[simp] theorem State.countDraw_draws (s : State) : s.countDraw.draws = s.draws + 1 := rfl
@[simp] theorem State.countDraw_schedule (s : State) : s.countDraw.schedule = s.schedule := rfl
@[simp] theorem State.countDraw_scheduleEnd (s : State) : s.countDraw.scheduleEnd = s.scheduleEnd := rfl
@[simp] theorem State.countDraw_inputs (s : State) : s.countDraw.inputs = s.inputs := rfl
@[simp] theorem State.countDraw_reg (s : State) (q : Reg) : s.countDraw.reg q = s.reg q := rfl
@[simp] theorem State.countDraw_readByte (s : State) (q : Nat) : s.countDraw.readByte q = s.readByte q := rfl
@[simp] theorem State.countDraw_key (s : State) (q : KeyCode) : s.countDraw.key q = s.key q := rfl
@[simp] theorem State.countDraw_frameRead (s : State) (q u : Nat) : s.countDraw.frameRead q u = s.frameRead q u := rfl

/-! #### `State.setKey` -/

@[simp] theorem State.setKey_v (s : State) (k : KeyCode) (c : KeyState) : (s.setKey k c).v = s.v := rfl
@[simp] theorem State.setKey_pc (s : State) (k : KeyCode) (c : KeyState) : (s.setKey k c).pc = s.pc := rfl
@[simp] theorem State.setKey_index (s : State) (k : KeyCode) (c : KeyState) : (s.setKey k c).index = s.index := rfl
@[simp] theorem State.setKey_stack (s : State) (k : KeyCode) (c : KeyState) : (s.setKey k c).stack = s.stack := rfl
@[simp] theorem State.setKey_dt (s : State) (k : KeyCode) (c : KeyState) : (s.setKey k c).dt = s.dt := rfl
@[simp] theorem State.setKey_st (s : State) (k : KeyCode) (c : KeyState) : (s.setKey k c).st = s.st := rfl
@[simp] theorem State.setKey_keys (s : State) (k : KeyCode) (c : KeyState) : (s.setKey k c).keys = s.keys.set k c := rfl
@[simp] theorem State.setKey_frame (s : State) (k : KeyCode) (c : KeyState) : (s.setKey k c).frame = s.frame := rfl
@[simp] theorem State.setKey_mode (s : State) (k : KeyCode) (c : KeyState) : (s.setKey k c).mode = s.mode := rfl
@[simp] theorem State.setKey_waitReg (s : State) (k : KeyCode) (c : KeyState) : (s.setKey k c).waitReg = s.waitReg := rfl
@[simp] theorem State.setKey_frameUpdated (s : State) (k : KeyCode) (c : KeyState) : (s.setKey k c).frameUpdated = s.frameUpdated := rfl
@[simp] theorem State.setKey_mem (s : State) (k : KeyCode) (c : KeyState) : (s.setKey k c).mem = s.mem := rfl
@[simp] theorem State.setKey_trace (s : State) (k : KeyCode) (c : KeyState) : (s.setKey k c).trace = s.trace := rfl
@[simp] theorem State.setKey_draws (s : State) (k : KeyCode) (c : KeyState) : (s.setKey k c).draws = s.draws := rfl
@[simp] theorem State.setKey_schedule (s : State) (k : KeyCode) (c : KeyState) : (s.setKey k c).schedule = s.schedule := rfl
@[simp] theorem State.setKey_scheduleEnd (s : State) (k : KeyCode) (c : KeyState) : (s.setKey k c).scheduleEnd = s.scheduleEnd := rfl
@[simp] theorem State.setKey_inputs (s : State) (k : KeyCode) (c : KeyState) : (s.setKey k c).inputs = s.inputs := rfl
@[simp] theorem State.setKey_reg (s : State) (k : KeyCode) (c : KeyState) (q : Reg) : (s.setKey k c).reg q = s.reg q := rfl
@[simp] theorem State.setKey_readByte (s : State) (k : KeyCode) (c : KeyState) (q : Nat) : (s.setKey k c).readByte q = s.readByte q := rfl
@[simp] theorem State.setKey_frameRead (s : State) (k : KeyCode) (c : KeyState) (q u : Nat) : (s.setKey k c).frameRead q u = s.frameRead q u := rfl

/-! #### `State.clearKeys` -/

@[simp] theorem State.clearKeys_v (s : State) : s.clearKeys.v = s.v := rfl
@[simp] theorem State.clearKeys_pc (s : State) : s.clearKeys.pc = s.pc := rfl
@[simp] theorem State.clearKeys_index (s : State) : s.clearKeys.index = s.index := rfl
@[simp] theorem State.clearKeys_stack (s : State) : s.clearKeys.stack = s.stack := rfl
@[simp] theorem State.clearKeys_dt (s : State) : s.clearKeys.dt = s.dt := rfl
@[simp] theorem State.clearKeys_st (s : State) : s.clearKeys.st = s.st := rfl
@[simp] theorem State.clearKeys_keys (s : State) : s.clearKeys.keys = Vector.replicate 16 .up := rfl
@[simp] theorem State.clearKeys_frame (s : State) : s.clearKeys.frame = s.frame := rfl
@[simp] theorem State.clearKeys_mode (s : State) : s.clearKeys.mode = s.mode := rfl
@[simp] theorem State.clearKeys_waitReg (s : State) : s.clearKeys.waitReg = s.waitReg := rfl
@[simp] theorem State.clearKeys_frameUpdated (s : State) : s.clearKeys.frameUpdated = s.frameUpdated := rfl
@[simp] theorem State.clearKeys_mem (s : State) : s.clearKeys.mem = s.mem := rfl
@[simp] theorem State.clearKeys_trace (s : State) : s.clearKeys.trace = s.trace := rfl
@[simp] theorem State.clearKeys_draws (s : State) : s.clearKeys.draws = s.draws := rfl
@[simp] theorem State.clearKeys_schedule (s : State) : s.clearKeys.schedule = s.schedule := rfl
@[simp] theorem State.clearKeys_scheduleEnd (s : State) : s.clearKeys.scheduleEnd = s.scheduleEnd := rfl
@[simp] theorem State.clearKeys_inputs (s : State) : s.clearKeys.inputs = s.inputs := rfl
@[simp] theorem State.clearKeys_reg (s : State) (q : Reg) : s.clearKeys.reg q = s.reg q := rfl
@[simp] theorem State.clearKeys_readByte (s : State) (q : Nat) : s.clearKeys.readByte q = s.readByte q := rfl
@[simp] theorem State.clearKeys_frameRead (s : State) (q u : Nat) : s.clearKeys.frameRead q u = s.frameRead q u := rfl

/-! #### `State.setMode` -/

@[simp] theorem State.setMode_v (s : State) (m : Mode) : (s.setMode m).v = s.v := rfl
@[simp] theorem State.setMode_pc (s : State) (m : Mode) : (s.setMode m).pc = s.pc := rfl
@[simp] theorem State.setMode_index (s : State) (m : Mode) : (s.setMode m).index = s.index := rfl
@[simp] theorem State.setMode_stack (s : State) (m : Mode) : (s.setMode m).stack = s.stack := rfl
@[simp] theorem State.setMode_dt (s : State) (m : Mode) : (s.setMode m).dt = s.dt := rfl
@[simp] theorem State.setMode_st (s : State) (m : Mode) : (s.setMode m).st = s.st := rfl
@[simp] theorem State.setMode_keys (s : State) (m : Mode) : (s.setMode m).keys = s.keys := rfl
@[simp] theorem State.setMode_frame (s : State) (m : Mode) : (s.setMode m).frame = s.frame := rfl
@[simp] theorem State.setMode_mode (s : State) (m : Mode) : (s.setMode m).mode = m := rfl
@[simp] theorem State.setMode_waitReg (s : State) (m : Mode) : (s.setMode m).waitReg = s.waitReg := rfl
@[simp] theorem State.setMode_frameUpdated (s : State) (m : Mode) : (s.setMode m).frameUpdated = s.frameUpdated := rfl
@[simp] theorem State.setMode_mem (s : State) (m : Mode) : (s.setMode m).mem = s.mem := rfl
@[simp] theorem State.setMode_trace (s : State) (m : Mode) : (s.setMode m).trace = s.trace := rfl
@[simp] theorem State.setMode_draws (s : State) (m : Mode) : (s.setMode m).draws = s.draws := rfl
@[simp] theorem State.setMode_schedule (s : State) (m : Mode) : (s.setMode m).schedule = s.schedule := rfl
@[simp] theorem State.setMode_scheduleEnd (s : State) (m : Mode) : (s.setMode m).scheduleEnd = s.scheduleEnd := rfl
@[simp] theorem State.setMode_inputs (s : State) (m : Mode) : (s.setMode m).inputs = s.inputs := rfl
@[simp] theorem State.setMode_reg (s : State) (m : Mode) (q : Reg) : (s.setMode m).reg q = s.reg q := rfl
@[simp] theorem State.setMode_readByte (s : State) (m : Mode) (q : Nat) : (s.setMode m).readByte q = s.readByte q := rfl
@[simp] theorem State.setMode_key (s : State) (m : Mode) (q : KeyCode) : (s.setMode m).key q = s.key q := rfl
@[simp] theorem State.setMode_frameRead (s : State) (m : Mode) (q u : Nat) : (s.setMode m).frameRead q u = s.frameRead q u := rfl

/-! #### `State.setWaitReg` -/

@[simp] theorem State.setWaitReg_v (s : State) (r : Reg) : (s.setWaitReg r).v = s.v := rfl
@[simp] theorem State.setWaitReg_pc (s : State) (r : Reg) : (s.setWaitReg r).pc = s.pc := rfl
@[simp] theorem State.setWaitReg_index (s : State) (r : Reg) : (s.setWaitReg r).index = s.index := rfl
@[simp] theorem State.setWaitReg_stack (s : State) (r : Reg) : (s.setWaitReg r).stack = s.stack := rfl
@[simp] theorem State.setWaitReg_dt (s : State) (r : Reg) : (s.setWaitReg r).dt = s.dt := rfl
@[simp] theorem State.setWaitReg_st (s : State) (r : Reg) : (s.setWaitReg r).st = s.st := rfl
@[simp] theorem State.setWaitReg_keys (s : State) (r : Reg) : (s.setWaitReg r).keys = s.keys := rfl
@[simp] theorem State.setWaitReg_frame (s : State) (r : Reg) : (s.setWaitReg r).frame = s.frame := rfl
@[simp] theorem State.setWaitReg_mode (s : State) (r : Reg) : (s.setWaitReg r).mode = s.mode := rfl
@[simp] theorem State.setWaitReg_waitReg (s : State) (r : Reg) : (s.setWaitReg r).waitReg = r := rfl
@[simp] theorem State.setWaitReg_frameUpdated (s : State) (r : Reg) : (s.setWaitReg r).frameUpdated = s.frameUpdated := rfl
@[simp] theorem State.setWaitReg_mem (s : State) (r : Reg) : (s.setWaitReg r).mem = s.mem := rfl
@[simp] theorem State.setWaitReg_trace (s : State) (r : Reg) : (s.setWaitReg r).trace = s.trace := rfl
@[simp] theorem State.setWaitReg_draws (s : State) (r : Reg) : (s.setWaitReg r).draws = s.draws := rfl
@[simp] theorem State.setWaitReg_schedule (s : State) (r : Reg) : (s.setWaitReg r).schedule = s.schedule := rfl
@[simp] theorem State.setWaitReg_scheduleEnd (s : State) (r : Reg) : (s.setWaitReg r).scheduleEnd = s.scheduleEnd := rfl
@[simp] theorem State.setWaitReg_inputs (s : State) (r : Reg) : (s.setWaitReg r).inputs = s.inputs := rfl
@[simp] theorem State.setWaitReg_reg (s : State) (r : Reg) (q : Reg) : (s.setWaitReg r).reg q = s.reg q := rfl
@[simp] theorem State.setWaitReg_readByte (s : State) (r : Reg) (q : Nat) : (s.setWaitReg r).readByte q = s.readByte q := rfl
@[simp] theorem State.setWaitReg_key (s : State) (r : Reg) (q : KeyCode) : (s.setWaitReg r).key q = s.key q := rfl
@[simp] theorem State.setWaitReg_frameRead (s : State) (r : Reg) (q u : Nat) : (s.setWaitReg r).frameRead q u = s.frameRead q u := rfl

/-! #### `State.setFrameUpdated` -/

@[simp] theorem State.setFrameUpdated_v (s : State) (c : Bool) : (s.setFrameUpdated c).v = s.v := rfl
@[simp] theorem State.setFrameUpdated_pc (s : State) (c : Bool) : (s.setFrameUpdated c).pc = s.pc := rfl
@[simp] theorem State.setFrameUpdated_index (s : State) (c : Bool) : (s.setFrameUpdated c).index = s.index := rfl
@[simp] theorem State.setFrameUpdated_stack (s : State) (c : Bool) : (s.setFrameUpdated c).stack = s.stack := rfl
@[simp] theorem State.setFrameUpdated_dt (s : State) (c : Bool) : (s.setFrameUpdated c).dt = s.dt := rfl
@[simp] theorem State.setFrameUpdated_st (s : State) (c : Bool) : (s.setFrameUpdated c).st = s.st := rfl
@[simp] theorem State.setFrameUpdated_keys (s : State) (c : Bool) : (s.setFrameUpdated c).keys = s.keys := rfl
@[simp] theorem State.setFrameUpdated_frame (s : State) (c : Bool) : (s.setFrameUpdated c).frame = s.frame := rfl
@[simp] theorem State.setFrameUpdated_mode (s : State) (c : Bool) : (s.setFrameUpdated c).mode = s.mode := rfl
@[simp] theorem State.setFrameUpdated_waitReg (s : State) (c : Bool) : (s.setFrameUpdated c).waitReg = s.waitReg := rfl
@[simp] theorem State.setFrameUpdated_frameUpdated (s : State) (c : Bool) : (s.setFrameUpdated c).frameUpdated = c := rfl
@[simp] theorem State.setFrameUpdated_mem (s : State) (c : Bool) : (s.setFrameUpdated c).mem = s.mem := rfl
@[simp] theorem State.setFrameUpdated_trace (s : State) (c : Bool) : (s.setFrameUpdated c).trace = s.trace := rfl
@[simp] theorem State.setFrameUpdated_draws (s : State) (c : Bool) : (s.setFrameUpdated c).draws = s.draws := rfl
@[simp] theorem State.setFrameUpdated_schedule (s : State) (c : Bool) : (s.setFrameUpdated c).schedule = s.schedule := rfl
@[simp] theorem State.setFrameUpdated_scheduleEnd (s : State) (c : Bool) : (s.setFrameUpdated c).scheduleEnd = s.scheduleEnd := rfl
@[simp] theorem State.setFrameUpdated_inputs (s : State) (c : Bool) : (s.setFrameUpdated c).inputs = s.inputs := rfl
@[simp] theorem State.setFrameUpdated_reg (s : State) (c : Bool) (q : Reg) : (s.setFrameUpdated c).reg q = s.reg q := rfl
@[simp] theorem State.setFrameUpdated_readByte (s : State) (c : Bool) (q : Nat) : (s.setFrameUpdated c).readByte q = s.readByte q := rfl
@[simp] theorem State.setFrameUpdated_key (s : State) (c : Bool) (q : KeyCode) : (s.setFrameUpdated c).key q = s.key q := rfl
@[simp] theorem State.setFrameUpdated_frameRead (s : State) (c : Bool) (q u : Nat) : (s.setFrameUpdated c).frameRead q u = s.frameRead q u := rfl

/-! #### `State.setFrame` -/

@[simp] theorem State.setFrame_v (s : State) (f : Frame) : (s.setFrame f).v = s.v := rfl
@[simp] theorem State.setFrame_pc (s : State) (f : Frame) : (s.setFrame f).pc = s.pc := rfl
@[simp] theorem State.setFrame_index (s : State) (f : Frame) : (s.setFrame f).index = s.index := rfl
@[simp] theorem State.setFrame_stack (s : State) (f : Frame) : (s.setFrame f).stack = s.stack := rfl
@[simp] theorem State.setFrame_dt (s : State) (f : Frame) : (s.setFrame f).dt = s.dt := rfl
@[simp] theorem State.setFrame_st (s : State) (f : Frame) : (s.setFrame f).st = s.st := rfl
@[simp] theorem State.setFrame_keys (s : State) (f : Frame) : (s.setFrame f).keys = s.keys := rfl
@[simp] theorem State.setFrame_frame (s : State) (f : Frame) : (s.setFrame f).frame = f := rfl
@[simp] theorem State.setFrame_mode (s : State) (f : Frame) : (s.setFrame f).mode = s.mode := rfl
@[simp] theorem State.setFrame_waitReg (s : State) (f : Frame) : (s.setFrame f).waitReg = s.waitReg := rfl
@[simp] theorem State.setFrame_frameUpdated (s : State) (f : Frame) : (s.setFrame f).frameUpdated = s.frameUpdated := rfl
@[simp] theorem State.setFrame_mem (s : State) (f : Frame) : (s.setFrame f).mem = s.mem := rfl
@[simp] theorem State.setFrame_trace (s : State) (f : Frame) : (s.setFrame f).trace = s.trace := rfl
@[simp] theorem State.setFrame_draws (s : State) (f : Frame) : (s.setFrame f).draws = s.draws := rfl
@[simp] theorem State.setFrame_schedule (s : State) (f : Frame) : (s.setFrame f).schedule = s.schedule := rfl
@[simp] theorem State.setFrame_scheduleEnd (s : State) (f : Frame) : (s.setFrame f).scheduleEnd = s.scheduleEnd := rfl
@[simp] theorem State.setFrame_inputs (s : State) (f : Frame) : (s.setFrame f).inputs = s.inputs := rfl
@[simp] theorem State.setFrame_reg (s : State) (f : Frame) (q : Reg) : (s.setFrame f).reg q = s.reg q := rfl
@[simp] theorem State.setFrame_readByte (s : State) (f : Frame) (q : Nat) : (s.setFrame f).readByte q = s.readByte q := rfl
@[simp] theorem State.setFrame_key (s : State) (f : Frame) (q : KeyCode) : (s.setFrame f).key q = s.key q := rfl

/-! #### `State.clearFrame` -/

@[simp] theorem State.clearFrame_v (s : State) : s.clearFrame.v = s.v := rfl
@[simp] theorem State.clearFrame_pc (s : State) : s.clearFrame.pc = s.pc := rfl
@[simp] theorem State.clearFrame_index (s : State) : s.clearFrame.index = s.index := rfl
@[simp] theorem State.clearFrame_stack (s : State) : s.clearFrame.stack = s.stack := rfl
@[simp] theorem State.clearFrame_dt (s : State) : s.clearFrame.dt = s.dt := rfl
@[simp] theorem State.clearFrame_st (s : State) : s.clearFrame.st = s.st := rfl
@[simp] theorem State.clearFrame_keys (s : State) : s.clearFrame.keys = s.keys := rfl
@[simp] theorem State.clearFrame_frame (s : State) : s.clearFrame.frame = Vector.replicate 64 (Vector.replicate 32 .off) := rfl
@[simp] theorem State.clearFrame_mode (s : State) : s.clearFrame.mode = s.mode := rfl
@[simp] theorem State.clearFrame_waitReg (s : State) : s.clearFrame.waitReg = s.waitReg := rfl
@[simp] theorem State.clearFrame_frameUpdated (s : State) : s.clearFrame.frameUpdated = s.frameUpdated := rfl
@[simp] theorem State.clearFrame_mem (s : State) : s.clearFrame.mem = s.mem := rfl
@[simp] theorem State.clearFrame_trace (s : State) : s.clearFrame.trace = s.trace := rfl
@[simp] theorem State.clearFrame_draws (s : State) : s.clearFrame.draws = s.draws := rfl
@[simp] theorem State.clearFrame_schedule (s : State) : s.clearFrame.schedule = s.schedule := rfl
@[simp] theorem State.clearFrame_scheduleEnd (s : State) : s.clearFrame.scheduleEnd = s.scheduleEnd := rfl
@[simp] theorem State.clearFrame_inputs (s : State) : s.clearFrame.inputs = s.inputs := rfl
@[simp] theorem State.clearFrame_reg (s : State) (q : Reg) : s.clearFrame.reg q = s.reg q := rfl
@[simp] theorem State.clearFrame_readByte (s : State) (q : Nat) : s.clearFrame.readByte q = s.readByte q := rfl
@[simp] theorem State.clearFrame_key (s : State) (q : KeyCode) : s.clearFrame.key q = s.key q := rfl

/-! #### `State.setSchedule` -/

@[simp] theorem State.setSchedule_v (s : State) (es : List Event) : (s.setSchedule es).v = s.v := rfl
@[simp] theorem State.setSchedule_pc (s : State) (es : List Event) : (s.setSchedule es).pc = s.pc := rfl
@[simp] theorem State.setSchedule_index (s : State) (es : List Event) : (s.setSchedule es).index = s.index := rfl
@[simp] theorem State.setSchedule_stack (s : State) (es : List Event) : (s.setSchedule es).stack = s.stack := rfl
@[simp] theorem State.setSchedule_dt (s : State) (es : List Event) : (s.setSchedule es).dt = s.dt := rfl
@[simp] theorem State.setSchedule_st (s : State) (es : List Event) : (s.setSchedule es).st = s.st := rfl
@[simp] theorem State.setSchedule_keys (s : State) (es : List Event) : (s.setSchedule es).keys = s.keys := rfl
@[simp] theorem State.setSchedule_frame (s : State) (es : List Event) : (s.setSchedule es).frame = s.frame := rfl
@[simp] theorem State.setSchedule_mode (s : State) (es : List Event) : (s.setSchedule es).mode = s.mode := rfl
@[simp] theorem State.setSchedule_waitReg (s : State) (es : List Event) : (s.setSchedule es).waitReg = s.waitReg := rfl
@[simp] theorem State.setSchedule_frameUpdated (s : State) (es : List Event) : (s.setSchedule es).frameUpdated = s.frameUpdated := rfl
@[simp] theorem State.setSchedule_mem (s : State) (es : List Event) : (s.setSchedule es).mem = s.mem := rfl
@[simp] theorem State.setSchedule_trace (s : State) (es : List Event) : (s.setSchedule es).trace = s.trace := rfl
@[simp] theorem State.setSchedule_draws (s : State) (es : List Event) : (s.setSchedule es).draws = s.draws := rfl
@[simp] theorem State.setSchedule_schedule (s : State) (es : List Event) : (s.setSchedule es).schedule = es := rfl
@[simp] theorem State.setSchedule_scheduleEnd (s : State) (es : List Event) : (s.setSchedule es).scheduleEnd = s.scheduleEnd := rfl
@[simp] theorem State.setSchedule_inputs (s : State) (es : List Event) : (s.setSchedule es).inputs = s.inputs := rfl
@[simp] theorem State.setSchedule_reg (s : State) (es : List Event) (q : Reg) : (s.setSchedule es).reg q = s.reg q := rfl
@[simp] theorem State.setSchedule_readByte (s : State) (es : List Event) (q : Nat) : (s.setSchedule es).readByte q = s.readByte q := rfl
@[simp] theorem State.setSchedule_key (s : State) (es : List Event) (q : KeyCode) : (s.setSchedule es).key q = s.key q := rfl
@[simp] theorem State.setSchedule_frameRead (s : State) (es : List Event) (q u : Nat) : (s.setSchedule es).frameRead q u = s.frameRead q u := rfl

/-! #### `State.setScheduleEnd` -/

@[simp] theorem State.setScheduleEnd_v (s : State) (e : ScheduleEnd) : (s.setScheduleEnd e).v = s.v := rfl
@[simp] theorem State.setScheduleEnd_pc (s : State) (e : ScheduleEnd) : (s.setScheduleEnd e).pc = s.pc := rfl
@[simp] theorem State.setScheduleEnd_index (s : State) (e : ScheduleEnd) : (s.setScheduleEnd e).index = s.index := rfl
@[simp] theorem State.setScheduleEnd_stack (s : State) (e : ScheduleEnd) : (s.setScheduleEnd e).stack = s.stack := rfl
@[simp] theorem State.setScheduleEnd_dt (s : State) (e : ScheduleEnd) : (s.setScheduleEnd e).dt = s.dt := rfl
@[simp] theorem State.setScheduleEnd_st (s : State) (e : ScheduleEnd) : (s.setScheduleEnd e).st = s.st := rfl
@[simp] theorem State.setScheduleEnd_keys (s : State) (e : ScheduleEnd) : (s.setScheduleEnd e).keys = s.keys := rfl
@[simp] theorem State.setScheduleEnd_frame (s : State) (e : ScheduleEnd) : (s.setScheduleEnd e).frame = s.frame := rfl
@[simp] theorem State.setScheduleEnd_mode (s : State) (e : ScheduleEnd) : (s.setScheduleEnd e).mode = s.mode := rfl
@[simp] theorem State.setScheduleEnd_waitReg (s : State) (e : ScheduleEnd) : (s.setScheduleEnd e).waitReg = s.waitReg := rfl
@[simp] theorem State.setScheduleEnd_frameUpdated (s : State) (e : ScheduleEnd) : (s.setScheduleEnd e).frameUpdated = s.frameUpdated := rfl
@[simp] theorem State.setScheduleEnd_mem (s : State) (e : ScheduleEnd) : (s.setScheduleEnd e).mem = s.mem := rfl
@[simp] theorem State.setScheduleEnd_trace (s : State) (e : ScheduleEnd) : (s.setScheduleEnd e).trace = s.trace := rfl
@[simp] theorem State.setScheduleEnd_draws (s : State) (e : ScheduleEnd) : (s.setScheduleEnd e).draws = s.draws := rfl
@[simp] theorem State.setScheduleEnd_schedule (s : State) (e : ScheduleEnd) : (s.setScheduleEnd e).schedule = s.schedule := rfl
@[simp] theorem State.setScheduleEnd_scheduleEnd (s : State) (e : ScheduleEnd) : (s.setScheduleEnd e).scheduleEnd = e := rfl
@[simp] theorem State.setScheduleEnd_inputs (s : State) (e : ScheduleEnd) : (s.setScheduleEnd e).inputs = s.inputs := rfl
@[simp] theorem State.setScheduleEnd_reg (s : State) (e : ScheduleEnd) (q : Reg) : (s.setScheduleEnd e).reg q = s.reg q := rfl
@[simp] theorem State.setScheduleEnd_readByte (s : State) (e : ScheduleEnd) (q : Nat) : (s.setScheduleEnd e).readByte q = s.readByte q := rfl
@[simp] theorem State.setScheduleEnd_key (s : State) (e : ScheduleEnd) (q : KeyCode) : (s.setScheduleEnd e).key q = s.key q := rfl
@[simp] theorem State.setScheduleEnd_frameRead (s : State) (e : ScheduleEnd) (q u : Nat) : (s.setScheduleEnd e).frameRead q u = s.frameRead q u := rfl

/-! #### `State.countInput` -/

@[simp] theorem State.countInput_v (s : State) : s.countInput.v = s.v := rfl
@[simp] theorem State.countInput_pc (s : State) : s.countInput.pc = s.pc := rfl
@[simp] theorem State.countInput_index (s : State) : s.countInput.index = s.index := rfl
@[simp] theorem State.countInput_stack (s : State) : s.countInput.stack = s.stack := rfl
@[simp] theorem State.countInput_dt (s : State) : s.countInput.dt = s.dt := rfl
@[simp] theorem State.countInput_st (s : State) : s.countInput.st = s.st := rfl
@[simp] theorem State.countInput_keys (s : State) : s.countInput.keys = s.keys := rfl
@[simp] theorem State.countInput_frame (s : State) : s.countInput.frame = s.frame := rfl
@[simp] theorem State.countInput_mode (s : State) : s.countInput.mode = s.mode := rfl
@[simp] theorem State.countInput_waitReg (s : State) : s.countInput.waitReg = s.waitReg := rfl
@[simp] theorem State.countInput_frameUpdated (s : State) : s.countInput.frameUpdated = s.frameUpdated := rfl
@[simp] theorem State.countInput_mem (s : State) : s.countInput.mem = s.mem := rfl
@[simp] theorem State.countInput_trace (s : State) : s.countInput.trace = s.trace := rfl
@[simp] theorem State.countInput_draws (s : State) : s.countInput.draws = s.draws := rfl
@[simp] theorem State.countInput_schedule (s : State) : s.countInput.schedule = s.schedule := rfl
@[simp] theorem State.countInput_scheduleEnd (s : State) : s.countInput.scheduleEnd = s.scheduleEnd := rfl
@[simp] theorem State.countInput_inputs (s : State) : s.countInput.inputs = s.inputs + 1 := rfl
@[simp] theorem State.countInput_reg (s : State) (q : Reg) : s.countInput.reg q = s.reg q := rfl
@[simp] theorem State.countInput_readByte (s : State) (q : Nat) : s.countInput.readByte q = s.readByte q := rfl
@[simp] theorem State.countInput_key (s : State) (q : KeyCode) : s.countInput.key q = s.key q := rfl
@[simp] theorem State.countInput_frameRead (s : State) (q u : Nat) : s.countInput.frameRead q u = s.frameRead q u := rfl

/-! #### `State.clearStack` -/

@[simp] theorem State.clearStack_v (s : State) : s.clearStack.v = s.v := rfl
@[simp] theorem State.clearStack_pc (s : State) : s.clearStack.pc = s.pc := rfl
@[simp] theorem State.clearStack_index (s : State) : s.clearStack.index = s.index := rfl
@[simp] theorem State.clearStack_stack (s : State) : s.clearStack.stack = [] := rfl
@[simp] theorem State.clearStack_dt (s : State) : s.clearStack.dt = s.dt := rfl
@[simp] theorem State.clearStack_st (s : State) : s.clearStack.st = s.st := rfl
@[simp] theorem State.clearStack_keys (s : State) : s.clearStack.keys = s.keys := rfl
@[simp] theorem State.clearStack_frame (s : State) : s.clearStack.frame = s.frame := rfl
@[simp] theorem State.clearStack_mode (s : State) : s.clearStack.mode = s.mode := rfl
@[simp] theorem State.clearStack_waitReg (s : State) : s.clearStack.waitReg = s.waitReg := rfl
@[simp] theorem State.clearStack_frameUpdated (s : State) : s.clearStack.frameUpdated = s.frameUpdated := rfl
@[simp] theorem State.clearStack_mem (s : State) : s.clearStack.mem = s.mem := rfl
@[simp] theorem State.clearStack_trace (s : State) : s.clearStack.trace = s.trace := rfl
@[simp] theorem State.clearStack_draws (s : State) : s.clearStack.draws = s.draws := rfl
@[simp] theorem State.clearStack_schedule (s : State) : s.clearStack.schedule = s.schedule := rfl
@[simp] theorem State.clearStack_scheduleEnd (s : State) : s.clearStack.scheduleEnd = s.scheduleEnd := rfl
@[simp] theorem State.clearStack_inputs (s : State) : s.clearStack.inputs = s.inputs := rfl
@[simp] theorem State.clearStack_reg (s : State) (q : Reg) : s.clearStack.reg q = s.reg q := rfl
@[simp] theorem State.clearStack_readByte (s : State) (q : Nat) : s.clearStack.readByte q = s.readByte q := rfl
@[simp] theorem State.clearStack_key (s : State) (q : KeyCode) : s.clearStack.key q = s.key q := rfl
@[simp] theorem State.clearStack_frameRead (s : State) (q u : Nat) : s.clearStack.frameRead q u = s.frameRead q u := rfl

/-! #### `State.setStack` -/

@[simp] theorem State.setStack_v (s : State) (ws : List Word) : (s.setStack ws).v = s.v := rfl
@[simp] theorem State.setStack_pc (s : State) (ws : List Word) : (s.setStack ws).pc = s.pc := rfl
@[simp] theorem State.setStack_index (s : State) (ws : List Word) : (s.setStack ws).index = s.index := rfl
@[simp] theorem State.setStack_stack (s : State) (ws : List Word) : (s.setStack ws).stack = ws := rfl
@[simp] theorem State.setStack_dt (s : State) (ws : List Word) : (s.setStack ws).dt = s.dt := rfl
@[simp] theorem State.setStack_st (s : State) (ws : List Word) : (s.setStack ws).st = s.st := rfl
@[simp] theorem State.setStack_keys (s : State) (ws : List Word) : (s.setStack ws).keys = s.keys := rfl
@[simp] theorem State.setStack_frame (s : State) (ws : List Word) : (s.setStack ws).frame = s.frame := rfl
@[simp] theorem State.setStack_mode (s : State) (ws : List Word) : (s.setStack ws).mode = s.mode := rfl
@[simp] theorem State.setStack_waitReg (s : State) (ws : List Word) : (s.setStack ws).waitReg = s.waitReg := rfl
@[simp] theorem State.setStack_frameUpdated (s : State) (ws : List Word) : (s.setStack ws).frameUpdated = s.frameUpdated := rfl
@[simp] theorem State.setStack_mem (s : State) (ws : List Word) : (s.setStack ws).mem = s.mem := rfl
@[simp] theorem State.setStack_trace (s : State) (ws : List Word) : (s.setStack ws).trace = s.trace := rfl
@[simp] theorem State.setStack_draws (s : State) (ws : List Word) : (s.setStack ws).draws = s.draws := rfl
@[simp] theorem State.setStack_schedule (s : State) (ws : List Word) : (s.setStack ws).schedule = s.schedule := rfl
@[simp] theorem State.setStack_scheduleEnd (s : State) (ws : List Word) : (s.setStack ws).scheduleEnd = s.scheduleEnd := rfl
@[simp] theorem State.setStack_inputs (s : State) (ws : List Word) : (s.setStack ws).inputs = s.inputs := rfl
@[simp] theorem State.setStack_reg (s : State) (ws : List Word) (q : Reg) : (s.setStack ws).reg q = s.reg q := rfl
@[simp] theorem State.setStack_readByte (s : State) (ws : List Word) (q : Nat) : (s.setStack ws).readByte q = s.readByte q := rfl
@[simp] theorem State.setStack_key (s : State) (ws : List Word) (q : KeyCode) : (s.setStack ws).key q = s.key q := rfl
@[simp] theorem State.setStack_frameRead (s : State) (ws : List Word) (q u : Nat) : (s.setStack ws).frameRead q u = s.frameRead q u := rfl

/-! #### `State.setCount` -/

@[simp] theorem State.setCount_v (s : State) (t : Timer) (n : Byte) : (s.setCount t n).v = s.v := by cases t <;> rfl
@[simp] theorem State.setCount_pc (s : State) (t : Timer) (n : Byte) : (s.setCount t n).pc = s.pc := by cases t <;> rfl
@[simp] theorem State.setCount_index (s : State) (t : Timer) (n : Byte) : (s.setCount t n).index = s.index := by cases t <;> rfl
@[simp] theorem State.setCount_stack (s : State) (t : Timer) (n : Byte) : (s.setCount t n).stack = s.stack := by cases t <;> rfl
@[simp] theorem State.setCount_keys (s : State) (t : Timer) (n : Byte) : (s.setCount t n).keys = s.keys := by cases t <;> rfl
@[simp] theorem State.setCount_frame (s : State) (t : Timer) (n : Byte) : (s.setCount t n).frame = s.frame := by cases t <;> rfl
@[simp] theorem State.setCount_mode (s : State) (t : Timer) (n : Byte) : (s.setCount t n).mode = s.mode := by cases t <;> rfl
@[simp] theorem State.setCount_waitReg (s : State) (t : Timer) (n : Byte) : (s.setCount t n).waitReg = s.waitReg := by cases t <;> rfl
@[simp] theorem State.setCount_frameUpdated (s : State) (t : Timer) (n : Byte) : (s.setCount t n).frameUpdated = s.frameUpdated := by cases t <;> rfl
@[simp] theorem State.setCount_mem (s : State) (t : Timer) (n : Byte) : (s.setCount t n).mem = s.mem := by cases t <;> rfl
@[simp] theorem State.setCount_trace (s : State) (t : Timer) (n : Byte) : (s.setCount t n).trace = s.trace := by cases t <;> rfl
@[simp] theorem State.setCount_draws (s : State) (t : Timer) (n : Byte) : (s.setCount t n).draws = s.draws := by cases t <;> rfl
@[simp] theorem State.setCount_schedule (s : State) (t : Timer) (n : Byte) : (s.setCount t n).schedule = s.schedule := by cases t <;> rfl
@[simp] theorem State.setCount_scheduleEnd (s : State) (t : Timer) (n : Byte) : (s.setCount t n).scheduleEnd = s.scheduleEnd := by cases t <;> rfl
@[simp] theorem State.setCount_inputs (s : State) (t : Timer) (n : Byte) : (s.setCount t n).inputs = s.inputs := by cases t <;> rfl
@[simp] theorem State.setCount_reg (s : State) (t : Timer) (n : Byte) (q : Reg) : (s.setCount t n).reg q = s.reg q := by cases t <;> rfl
@[simp] theorem State.setCount_readByte (s : State) (t : Timer) (n : Byte) (q : Nat) : (s.setCount t n).readByte q = s.readByte q := by cases t <;> rfl
@[simp] theorem State.setCount_key (s : State) (t : Timer) (n : Byte) (q : KeyCode) : (s.setCount t n).key q = s.key q := by cases t <;> rfl
@[simp] theorem State.setCount_frameRead (s : State) (t : Timer) (n : Byte) (q u : Nat) : (s.setCount t n).frameRead q u = s.frameRead q u := by cases t <;> rfl

/-! #### `State.emitEdge` -/

@[simp] theorem State.emitEdge_v (s : State) (t : Timer) (o : Output) : (s.emitEdge t o).v = s.v := by cases t <;> rfl
@[simp] theorem State.emitEdge_pc (s : State) (t : Timer) (o : Output) : (s.emitEdge t o).pc = s.pc := by cases t <;> rfl
@[simp] theorem State.emitEdge_index (s : State) (t : Timer) (o : Output) : (s.emitEdge t o).index = s.index := by cases t <;> rfl
@[simp] theorem State.emitEdge_stack (s : State) (t : Timer) (o : Output) : (s.emitEdge t o).stack = s.stack := by cases t <;> rfl
@[simp] theorem State.emitEdge_dt (s : State) (t : Timer) (o : Output) : (s.emitEdge t o).dt = s.dt := by cases t <;> rfl
@[simp] theorem State.emitEdge_st (s : State) (t : Timer) (o : Output) : (s.emitEdge t o).st = s.st := by cases t <;> rfl
@[simp] theorem State.emitEdge_keys (s : State) (t : Timer) (o : Output) : (s.emitEdge t o).keys = s.keys := by cases t <;> rfl
@[simp] theorem State.emitEdge_frame (s : State) (t : Timer) (o : Output) : (s.emitEdge t o).frame = s.frame := by cases t <;> rfl
@[simp] theorem State.emitEdge_mode (s : State) (t : Timer) (o : Output) : (s.emitEdge t o).mode = s.mode := by cases t <;> rfl
@[simp] theorem State.emitEdge_waitReg (s : State) (t : Timer) (o : Output) : (s.emitEdge t o).waitReg = s.waitReg := by cases t <;> rfl
@[simp] theorem State.emitEdge_frameUpdated (s : State) (t : Timer) (o : Output) : (s.emitEdge t o).frameUpdated = s.frameUpdated := by cases t <;> rfl
@[simp] theorem State.emitEdge_mem (s : State) (t : Timer) (o : Output) : (s.emitEdge t o).mem = s.mem := by cases t <;> rfl
@[simp] theorem State.emitEdge_draws (s : State) (t : Timer) (o : Output) : (s.emitEdge t o).draws = s.draws := by cases t <;> rfl
@[simp] theorem State.emitEdge_schedule (s : State) (t : Timer) (o : Output) : (s.emitEdge t o).schedule = s.schedule := by cases t <;> rfl
@[simp] theorem State.emitEdge_scheduleEnd (s : State) (t : Timer) (o : Output) : (s.emitEdge t o).scheduleEnd = s.scheduleEnd := by cases t <;> rfl
@[simp] theorem State.emitEdge_inputs (s : State) (t : Timer) (o : Output) : (s.emitEdge t o).inputs = s.inputs := by cases t <;> rfl
@[simp] theorem State.emitEdge_reg (s : State) (t : Timer) (o : Output) (q : Reg) : (s.emitEdge t o).reg q = s.reg q := by cases t <;> rfl
@[simp] theorem State.emitEdge_readByte (s : State) (t : Timer) (o : Output) (q : Nat) : (s.emitEdge t o).readByte q = s.readByte q := by cases t <;> rfl
@[simp] theorem State.emitEdge_key (s : State) (t : Timer) (o : Output) (q : KeyCode) : (s.emitEdge t o).key q = s.key q := by cases t <;> rfl
@[simp] theorem State.emitEdge_frameRead (s : State) (t : Timer) (o : Output) (q u : Nat) : (s.emitEdge t o).frameRead q u = s.frameRead q u := by cases t <;> rfl

/-! #### `State.setTimer` -/

/-- All that `setTimer` can do to the state: nothing, a new count, or a new count with an audio edge. -/
theorem State.setTimer_shape (s : State) (t : Timer) (n : Byte) :
    s.setTimer t n = s ∨ ∃ m, s.setTimer t n = s.setCount t m ∨ ∃ o, s.setTimer t n = (s.setCount t m).emitEdge t o := by
  unfold State.setTimer
  split
  · split
    · exact .inl rfl
    · split
      · exact .inl rfl
      · exact .inr ⟨_, .inr ⟨_, rfl⟩⟩
  · split
    · exact .inr ⟨_, .inr ⟨_, rfl⟩⟩
    · exact .inr ⟨_, .inl rfl⟩

@[simp] theorem State.setTimer_v (s : State) (t : Timer) (n : Byte) : (s.setTimer t n).v = s.v := by
  obtain h | ⟨m, h | ⟨o, h⟩⟩ := s.setTimer_shape t n <;> simp [h]
@[simp] theorem State.setTimer_pc (s : State) (t : Timer) (n : Byte) : (s.setTimer t n).pc = s.pc := by
  obtain h | ⟨m, h | ⟨o, h⟩⟩ := s.setTimer_shape t n <;> simp [h]
@[simp] theorem State.setTimer_index (s : State) (t : Timer) (n : Byte) : (s.setTimer t n).index = s.index := by
  obtain h | ⟨m, h | ⟨o, h⟩⟩ := s.setTimer_shape t n <;> simp [h]
@[simp] theorem State.setTimer_stack (s : State) (t : Timer) (n : Byte) : (s.setTimer t n).stack = s.stack := by
  obtain h | ⟨m, h | ⟨o, h⟩⟩ := s.setTimer_shape t n <;> simp [h]
@[simp] theorem State.setTimer_keys (s : State) (t : Timer) (n : Byte) : (s.setTimer t n).keys = s.keys := by
  obtain h | ⟨m, h | ⟨o, h⟩⟩ := s.setTimer_shape t n <;> simp [h]
@[simp] theorem State.setTimer_frame (s : State) (t : Timer) (n : Byte) : (s.setTimer t n).frame = s.frame := by
  obtain h | ⟨m, h | ⟨o, h⟩⟩ := s.setTimer_shape t n <;> simp [h]
@[simp] theorem State.setTimer_mode (s : State) (t : Timer) (n : Byte) : (s.setTimer t n).mode = s.mode := by
  obtain h | ⟨m, h | ⟨o, h⟩⟩ := s.setTimer_shape t n <;> simp [h]
@[simp] theorem State.setTimer_waitReg (s : State) (t : Timer) (n : Byte) : (s.setTimer t n).waitReg = s.waitReg := by
  obtain h | ⟨m, h | ⟨o, h⟩⟩ := s.setTimer_shape t n <;> simp [h]
@[simp] theorem State.setTimer_frameUpdated (s : State) (t : Timer) (n : Byte) : (s.setTimer t n).frameUpdated = s.frameUpdated := by
  obtain h | ⟨m, h | ⟨o, h⟩⟩ := s.setTimer_shape t n <;> simp [h]
@[simp] theorem State.setTimer_mem (s : State) (t : Timer) (n : Byte) : (s.setTimer t n).mem = s.mem := by
  obtain h | ⟨m, h | ⟨o, h⟩⟩ := s.setTimer_shape t n <;> simp [h]
@[simp] theorem State.setTimer_draws (s : State) (t : Timer) (n : Byte) : (s.setTimer t n).draws = s.draws := by
  obtain h | ⟨m, h | ⟨o, h⟩⟩ := s.setTimer_shape t n <;> simp [h]
@[simp] theorem State.setTimer_schedule (s : State) (t : Timer) (n : Byte) : (s.setTimer t n).schedule = s.schedule := by
  obtain h | ⟨m, h | ⟨o, h⟩⟩ := s.setTimer_shape t n <;> simp [h]
@[simp] theorem State.setTimer_scheduleEnd (s : State) (t : Timer) (n : Byte) : (s.setTimer t n).scheduleEnd = s.scheduleEnd := by
  obtain h | ⟨m, h | ⟨o, h⟩⟩ := s.setTimer_shape t n <;> simp [h]
@[simp] theorem State.setTimer_inputs (s : State) (t : Timer) (n : Byte) : (s.setTimer t n).inputs = s.inputs := by
  obtain h | ⟨m, h | ⟨o, h⟩⟩ := s.setTimer_shape t n <;> simp [h]
@[simp] theorem State.setTimer_reg (s : State) (t : Timer) (n : Byte) (q : Reg) : (s.setTimer t n).reg q = s.reg q := by simp [State.reg]
@[simp] theorem State.setTimer_readByte (s : State) (t : Timer) (n : Byte) (q : Nat) : (s.setTimer t n).readByte q = s.readByte q := by simp [State.readByte]
@[simp] theorem State.setTimer_key (s : State) (t : Timer) (n : Byte) (q : KeyCode) : (s.setTimer t n).key q = s.key q := by simp [State.key]
@[simp] theorem State.setTimer_frameRead (s : State) (t : Timer) (n : Byte) (q u : Nat) : (s.setTimer t n).frameRead q u = s.frameRead q u := by simp [State.frameRead]

/-! #### `State.tick` -/

/-- All that `tick` can do to the state: nothing, a new count, or a new count with an audio edge. -/
theorem State.tick_shape (s : State) (t : Timer) :
    s.tick t = s ∨ ∃ m, s.tick t = s.setCount t m ∨ ∃ o, s.tick t = (s.setCount t m).emitEdge t o := by
  unfold State.tick
  split
  · exact .inl rfl
  · split
    · exact .inr ⟨_, .inr ⟨_, rfl⟩⟩
    · exact .inr ⟨_, .inl rfl⟩

@[simp] theorem State.tick_v (s : State) (t : Timer) : (s.tick t).v = s.v := by
  obtain h | ⟨m, h | ⟨o, h⟩⟩ := s.tick_shape t <;> simp [h]
@[simp] theorem State.tick_pc (s : State) (t : Timer) : (s.tick t).pc = s.pc := by
  obtain h | ⟨m, h | ⟨o, h⟩⟩ := s.tick_shape t <;> simp [h]
@[simp] theorem State.tick_index (s : State) (t : Timer) : (s.tick t).index = s.index := by
  obtain h | ⟨m, h | ⟨o, h⟩⟩ := s.tick_shape t <;> simp [h]
@[simp] theorem State.tick_stack (s : State) (t : Timer) : (s.tick t).stack = s.stack := by
  obtain h | ⟨m, h | ⟨o, h⟩⟩ := s.tick_shape t <;> simp [h]
@[simp] theorem State.tick_keys (s : State) (t : Timer) : (s.tick t).keys = s.keys := by
  obtain h | ⟨m, h | ⟨o, h⟩⟩ := s.tick_shape t <;> simp [h]
@[simp] theorem State.tick_frame (s : State) (t : Timer) : (s.tick t).frame = s.frame := by
  obtain h | ⟨m, h | ⟨o, h⟩⟩ := s.tick_shape t <;> simp [h]
@[simp] theorem State.tick_mode (s : State) (t : Timer) : (s.tick t).mode = s.mode := by
  obtain h | ⟨m, h | ⟨o, h⟩⟩ := s.tick_shape t <;> simp [h]
@[simp] theorem State.tick_waitReg (s : State) (t : Timer) : (s.tick t).waitReg = s.waitReg := by
  obtain h | ⟨m, h | ⟨o, h⟩⟩ := s.tick_shape t <;> simp [h]
@[simp] theorem State.tick_frameUpdated (s : State) (t : Timer) : (s.tick t).frameUpdated = s.frameUpdated := by
  obtain h | ⟨m, h | ⟨o, h⟩⟩ := s.tick_shape t <;> simp [h]
@[simp] theorem State.tick_mem (s : State) (t : Timer) : (s.tick t).mem = s.mem := by
  obtain h | ⟨m, h | ⟨o, h⟩⟩ := s.tick_shape t <;> simp [h]
@[simp] theorem State.tick_draws (s : State) (t : Timer) : (s.tick t).draws = s.draws := by
  obtain h | ⟨m, h | ⟨o, h⟩⟩ := s.tick_shape t <;> simp [h]
@[simp] theorem State.tick_schedule (s : State) (t : Timer) : (s.tick t).schedule = s.schedule := by
  obtain h | ⟨m, h | ⟨o, h⟩⟩ := s.tick_shape t <;> simp [h]
@[simp] theorem State.tick_scheduleEnd (s : State) (t : Timer) : (s.tick t).scheduleEnd = s.scheduleEnd := by
  obtain h | ⟨m, h | ⟨o, h⟩⟩ := s.tick_shape t <;> simp [h]
@[simp] theorem State.tick_inputs (s : State) (t : Timer) : (s.tick t).inputs = s.inputs := by
  obtain h | ⟨m, h | ⟨o, h⟩⟩ := s.tick_shape t <;> simp [h]
@[simp] theorem State.tick_reg (s : State) (t : Timer) (q : Reg) : (s.tick t).reg q = s.reg q := by simp [State.reg]
@[simp] theorem State.tick_readByte (s : State) (t : Timer) (q : Nat) : (s.tick t).readByte q = s.readByte q := by simp [State.readByte]
@[simp] theorem State.tick_key (s : State) (t : Timer) (q : KeyCode) : (s.tick t).key q = s.key q := by simp [State.key]
@[simp] theorem State.tick_frameRead (s : State) (t : Timer) (q u : Nat) : (s.tick t).frameRead q u = s.frameRead q u := by simp [State.frameRead]

/-! #### `State.takeInput` -/

@[simp] theorem State.takeInput_v (s : State) : s.takeInput.v = s.v := by
  unfold State.takeInput; split; · rfl
  split <;> rfl
@[simp] theorem State.takeInput_pc (s : State) : s.takeInput.pc = s.pc := by
  unfold State.takeInput; split; · rfl
  split <;> rfl
@[simp] theorem State.takeInput_index (s : State) : s.takeInput.index = s.index := by
  unfold State.takeInput; split; · rfl
  split <;> rfl
@[simp] theorem State.takeInput_stack (s : State) : s.takeInput.stack = s.stack := by
  unfold State.takeInput; split; · rfl
  split <;> rfl
@[simp] theorem State.takeInput_dt (s : State) : s.takeInput.dt = s.dt := by
  unfold State.takeInput; split; · rfl
  split <;> rfl
@[simp] theorem State.takeInput_st (s : State) : s.takeInput.st = s.st := by
  unfold State.takeInput; split; · rfl
  split <;> rfl
@[simp] theorem State.takeInput_keys (s : State) : s.takeInput.keys = s.keys := by
  unfold State.takeInput; split; · rfl
  split <;> rfl
@[simp] theorem State.takeInput_frame (s : State) : s.takeInput.frame = s.frame := by
  unfold State.takeInput; split; · rfl
  split <;> rfl
@[simp] theorem State.takeInput_mode (s : State) : s.takeInput.mode = s.mode := by
  unfold State.takeInput; split; · rfl
  split <;> rfl
@[simp] theorem State.takeInput_waitReg (s : State) : s.takeInput.waitReg = s.waitReg := by
  unfold State.takeInput; split; · rfl
  split <;> rfl
@[simp] theorem State.takeInput_frameUpdated (s : State) : s.takeInput.frameUpdated = s.frameUpdated := by
  unfold State.takeInput; split; · rfl
  split <;> rfl
@[simp] theorem State.takeInput_mem (s : State) : s.takeInput.mem = s.mem := by
  unfold State.takeInput; split; · rfl
  split <;> rfl
@[simp] theorem State.takeInput_trace (s : State) : s.takeInput.trace = s.trace := by
  unfold State.takeInput; split; · rfl
  split <;> rfl
@[simp] theorem State.takeInput_draws (s : State) : s.takeInput.draws = s.draws := by
  unfold State.takeInput; split; · rfl
  split <;> rfl
@[simp] theorem State.takeInput_scheduleEnd (s : State) : s.takeInput.scheduleEnd = s.scheduleEnd := by
  unfold State.takeInput; split; · rfl
  split <;> rfl
@[simp] theorem State.takeInput_reg (s : State) (q : Reg) : s.takeInput.reg q = s.reg q := by
  simp [State.reg]
@[simp] theorem State.takeInput_readByte (s : State) (q : Nat) : s.takeInput.readByte q = s.readByte q := by
  simp [State.readByte]
@[simp] theorem State.takeInput_key (s : State) (q : KeyCode) : s.takeInput.key q = s.key q := by
  simp [State.key]
@[simp] theorem State.takeInput_frameRead (s : State) (q u : Nat) : s.takeInput.frameRead q u = s.frameRead q u := by
  simp [State.frameRead]
@[simp] theorem State.takeInput_fetch (s : State) : s.takeInput.fetch = s.fetch := by
  simp [State.fetch, State.readWord]

/-! #### `State.writeBytes` and `State.loadRegs` -/

@[simp] theorem State.writeBytes_v (s : State) (a : Nat) (bs : List Byte) : (s.writeBytes a bs).v = s.v := by
  induction bs generalizing s a with
  | nil => rfl
  | cons b bs ih => simp [State.writeBytes, ih]
@[simp] theorem State.writeBytes_pc (s : State) (a : Nat) (bs : List Byte) : (s.writeBytes a bs).pc = s.pc := by
  induction bs generalizing s a with
  | nil => rfl
  | cons b bs ih => simp [State.writeBytes, ih]
@[simp] theorem State.loadRegs_pc (s : State) (ks : List Reg) : (s.loadRegs ks).pc = s.pc := by
  induction ks generalizing s with
  | nil => rfl
  | cons k ks ih => simp [State.loadRegs, ih]
@[simp] theorem State.writeBytes_index (s : State) (a : Nat) (bs : List Byte) : (s.writeBytes a bs).index = s.index := by
  induction bs generalizing s a with
  | nil => rfl
  | cons b bs ih => simp [State.writeBytes, ih]
@[simp] theorem State.loadRegs_index (s : State) (ks : List Reg) : (s.loadRegs ks).index = s.index := by
  induction ks generalizing s with
  | nil => rfl
  | cons k ks ih => simp [State.loadRegs, ih]
@[simp] theorem State.writeBytes_stack (s : State) (a : Nat) (bs : List Byte) : (s.writeBytes a bs).stack = s.stack := by
  induction bs generalizing s a with
  | nil => rfl
  | cons b bs ih => simp [State.writeBytes, ih]
@[simp] theorem State.loadRegs_stack (s : State) (ks : List Reg) : (s.loadRegs ks).stack = s.stack := by
  induction ks generalizing s with
  | nil => rfl
  | cons k ks ih => simp [State.loadRegs, ih]
@[simp] theorem State.writeBytes_dt (s : State) (a : Nat) (bs : List Byte) : (s.writeBytes a bs).dt = s.dt := by
  induction bs generalizing s a with
  | nil => rfl
  | cons b bs ih => simp [State.writeBytes, ih]
@[simp] theorem State.loadRegs_dt (s : State) (ks : List Reg) : (s.loadRegs ks).dt = s.dt := by
  induction ks generalizing s with
  | nil => rfl
  | cons k ks ih => simp [State.loadRegs, ih]
@[simp] theorem State.writeBytes_st (s : State) (a : Nat) (bs : List Byte) : (s.writeBytes a bs).st = s.st := by
  induction bs generalizing s a with
  | nil => rfl
  | cons b bs ih => simp [State.writeBytes, ih]
@[simp] theorem State.loadRegs_st (s : State) (ks : List Reg) : (s.loadRegs ks).st = s.st := by
  induction ks generalizing s with
  | nil => rfl
  | cons k ks ih => simp [State.loadRegs, ih]
@[simp] theorem State.writeBytes_keys (s : State) (a : Nat) (bs : List Byte) : (s.writeBytes a bs).keys = s.keys := by
  induction bs generalizing s a with
  | nil => rfl
  | cons b bs ih => simp [State.writeBytes, ih]
@[simp] theorem State.loadRegs_keys (s : State) (ks : List Reg) : (s.loadRegs ks).keys = s.keys := by
  induction ks generalizing s with
  | nil => rfl
  | cons k ks ih => simp [State.loadRegs, ih]
@[simp] theorem State.writeBytes_frame (s : State) (a : Nat) (bs : List Byte) : (s.writeBytes a bs).frame = s.frame := by
  induction bs generalizing s a with
  | nil => rfl
  | cons b bs ih => simp [State.writeBytes, ih]
@[simp] theorem State.loadRegs_frame (s : State) (ks : List Reg) : (s.loadRegs ks).frame = s.frame := by
  induction ks generalizing s with
  | nil => rfl
  | cons k ks ih => simp [State.loadRegs, ih]
@[simp] theorem State.writeBytes_mode (s : State) (a : Nat) (bs : List Byte) : (s.writeBytes a bs).mode = s.mode := by
  induction bs generalizing s a with
  | nil => rfl
  | cons b bs ih => simp [State.writeBytes, ih]
@[simp] theorem State.loadRegs_mode (s : State) (ks : List Reg) : (s.loadRegs ks).mode = s.mode := by
  induction ks generalizing s with
  | nil => rfl
  | cons k ks ih => simp [State.loadRegs, ih]
@[simp] theorem State.writeBytes_waitReg (s : State) (a : Nat) (bs : List Byte) : (s.writeBytes a bs).waitReg = s.waitReg := by
  induction bs generalizing s a with
  | nil => rfl
  | cons b bs ih => simp [State.writeBytes, ih]
@[simp] theorem State.loadRegs_waitReg (s : State) (ks : List Reg) : (s.loadRegs ks).waitReg = s.waitReg := by
  induction ks generalizing s with
  | nil => rfl
  | cons k ks ih => simp [State.loadRegs, ih]
@[simp] theorem State.writeBytes_frameUpdated (s : State) (a : Nat) (bs : List Byte) : (s.writeBytes a bs).frameUpdated = s.frameUpdated := by
  induction bs generalizing s a with
  | nil => rfl
  | cons b bs ih => simp [State.writeBytes, ih]
@[simp] theorem State.loadRegs_frameUpdated (s : State) (ks : List Reg) : (s.loadRegs ks).frameUpdated = s.frameUpdated := by
  induction ks generalizing s with
  | nil => rfl
  | cons k ks ih => simp [State.loadRegs, ih]
@[simp] theorem State.loadRegs_mem (s : State) (ks : List Reg) : (s.loadRegs ks).mem = s.mem := by
  induction ks generalizing s with
  | nil => rfl
  | cons k ks ih => simp [State.loadRegs, ih]
@[simp] theorem State.writeBytes_trace (s : State) (a : Nat) (bs : List Byte) : (s.writeBytes a bs).trace = s.trace := by
  induction bs generalizing s a with
  | nil => rfl
  | cons b bs ih => simp [State.writeBytes, ih]
@[simp] theorem State.loadRegs_trace (s : State) (ks : List Reg) : (s.loadRegs ks).trace = s.trace := by
  induction ks generalizing s with
  | nil => rfl
  | cons k ks ih => simp [State.loadRegs, ih]
@[simp] theorem State.writeBytes_draws (s : State) (a : Nat) (bs : List Byte) : (s.writeBytes a bs).draws = s.draws := by
  induction bs generalizing s a with
  | nil => rfl
  | cons b bs ih => simp [State.writeBytes, ih]
@[simp] theorem State.loadRegs_draws (s : State) (ks : List Reg) : (s.loadRegs ks).draws = s.draws := by
  induction ks generalizing s with
  | nil => rfl
  | cons k ks ih => simp [State.loadRegs, ih]
@[simp] theorem State.writeBytes_schedule (s : State) (a : Nat) (bs : List Byte) : (s.writeBytes a bs).schedule = s.schedule := by
  induction bs generalizing s a with
  | nil => rfl
  | cons b bs ih => simp [State.writeBytes, ih]
@[simp] theorem State.loadRegs_schedule (s : State) (ks : List Reg) : (s.loadRegs ks).schedule = s.schedule := by
  induction ks generalizing s with
  | nil => rfl
  | cons k ks ih => simp [State.loadRegs, ih]
@[simp] theorem State.writeBytes_scheduleEnd (s : State) (a : Nat) (bs : List Byte) : (s.writeBytes a bs).scheduleEnd = s.scheduleEnd := by
  induction bs generalizing s a with
  | nil => rfl
  | cons b bs ih => simp [State.writeBytes, ih]
@[simp] theorem State.loadRegs_scheduleEnd (s : State) (ks : List Reg) : (s.loadRegs ks).scheduleEnd = s.scheduleEnd := by
  induction ks generalizing s with
  | nil => rfl
  | cons k ks ih => simp [State.loadRegs, ih]
@[simp] theorem State.writeBytes_inputs (s : State) (a : Nat) (bs : List Byte) : (s.writeBytes a bs).inputs = s.inputs := by
  induction bs generalizing s a with
  | nil => rfl
  | cons b bs ih => simp [State.writeBytes, ih]
@[simp] theorem State.loadRegs_inputs (s : State) (ks : List Reg) : (s.loadRegs ks).inputs = s.inputs := by
  induction ks generalizing s with
  | nil => rfl
  | cons k ks ih => simp [State.loadRegs, ih]
@[simp] theorem State.writeBytes_reg (s : State) (a : Nat) (bs : List Byte) (q : Reg) : (s.writeBytes a bs).reg q = s.reg q := by
  simp [State.reg]
@[simp] theorem State.loadRegs_readByte (s : State) (ks : List Reg) (q : Nat) : (s.loadRegs ks).readByte q = s.readByte q := by
  simp [State.readByte]
@[simp] theorem State.writeBytes_key (s : State) (a : Nat) (bs : List Byte) (q : KeyCode) : (s.writeBytes a bs).key q = s.key q := by
  simp [State.key]
@[simp] theorem State.loadRegs_key (s : State) (ks : List Reg) (q : KeyCode) : (s.loadRegs ks).key q = s.key q := by
  simp [State.key]
@[simp] theorem State.writeBytes_frameRead (s : State) (a : Nat) (bs : List Byte) (q u : Nat) : (s.writeBytes a bs).frameRead q u = s.frameRead q u := by
  simp [State.frameRead]
@[simp] theorem State.loadRegs_frameRead (s : State) (ks : List Reg) (q u : Nat) : (s.loadRegs ks).frameRead q u = s.frameRead q u := by
  simp [State.frameRead]

end Sys2Proof.Machine
end

