-- ==== Sys2Proof/Laws/Frame.lean ====
section
/-! SUPPORT. The laws of the framebuffer: one write, one toggle, a list of toggles, and which cells a sprite names
(44_display.md R117, R120; 20_memory.md R55). -/

namespace Sys2Proof.Machine

@[simp] theorem Cell.flip_flip (c : Cell) : c.flip.flip = c := by cases c <;> rfl

theorem Frame.get_put (f : Frame) (x y p q : Nat) (c : Cell) (h : x < 64 ∧ y < 32) :
    (f.put x y c).get p q = if p = x ∧ q = y then c else f.get p q := by
  unfold Frame.get Frame.put
  rw [dif_pos h]
  by_cases hp : p < 64 ∧ q < 32
  · rw [dif_pos hp, dif_pos hp, Vector.getElem_set]
    by_cases hx : x = p
    · subst hx
      by_cases hy : y = q
      · simp [hy]
      · simp [hy, Ne.symm hy]
    · simp [hx, Ne.symm hx]
  · rw [dif_neg hp, dif_neg hp, if_neg]
    rintro ⟨rfl, rfl⟩
    exact hp h

/-- Two frames with the same cells are the same frame. -/
theorem Frame.ext_get {f g : Frame} (h : ∀ x y, f.get x y = g.get x y) : f = g := by
  ext x hx y hy
  have := h x y
  simpa [Frame.get, hx, hy] using this

theorem Frame.get_out (f : Frame) (x y : Nat) (h : ¬ (x < 64 ∧ y < 32)) : f.get x y = .off := by
  simp only [Frame.get, dif_neg h]

/-- What a toggle leaves in every cell. -/
theorem Frame.get_toggle (f : Frame) (x y p q : Nat) :
    (f.toggle x y).1.get p q = if p = x ∧ q = y ∧ x < 64 ∧ y < 32 then (f.get x y).flip else f.get p q := by
  unfold Frame.toggle
  split
  · next h => simp [Frame.get_put _ _ _ _ _ _ h, h]
  · next h => rw [if_neg (fun e => h e.2.2)]

/-- When a toggle reports a cell turned off: exactly when the cell was ON. -/
theorem Frame.toggle_hit (f : Frame) (x y : Nat) : (f.toggle x y).2 = true ↔ f.get x y = .on := by
  unfold Frame.toggle
  split
  · simp
  · next h => simp [Frame.get_out f x y h]

/-- What toggling a list of different cells leaves in every cell. -/
theorem Frame.get_toggleAll (f : Frame) (cs : List (Nat × Nat)) (hn : cs.Nodup) (p q : Nat) :
    (f.toggleAll cs).1.get p q =
      if (p, q) ∈ cs ∧ p < 64 ∧ q < 32 then (f.get p q).flip else f.get p q := by
  induction cs generalizing f with
  | nil => simp [Frame.toggleAll]
  | cons c cs ih =>
    obtain ⟨x, y⟩ := c
    obtain ⟨hc, hn'⟩ := List.nodup_cons.mp hn
    simp only [Frame.toggleAll, ih _ hn', Frame.get_toggle, List.mem_cons, Prod.mk.injEq]
    by_cases h : p = x ∧ q = y
    · obtain ⟨rfl, rfl⟩ := h
      simp [hc]
    · have h' : ¬ (p = x ∧ q = y ∧ x < 64 ∧ y < 32) := fun e => h ⟨e.1, e.2.1⟩
      simp only [if_neg h', h, false_or]

/-- When toggling a list of different cells reports a collision: exactly when one of them was ON. -/
theorem Frame.toggleAll_hit (f : Frame) (cs : List (Nat × Nat)) (hn : cs.Nodup) :
    (f.toggleAll cs).2 = true ↔ ∃ c ∈ cs, f.get c.1 c.2 = .on := by
  induction cs generalizing f with
  | nil => simp [Frame.toggleAll]
  | cons c cs ih =>
    obtain ⟨hc, hn⟩ := List.nodup_cons.mp hn
    have same : ∀ d ∈ cs, (f.toggle c.1 c.2).1.get d.1 d.2 = f.get d.1 d.2 := by
      intro d hd
      rw [Frame.get_toggle, if_neg]
      rintro ⟨h1, h2, -⟩
      exact hc (Prod.ext h1 h2 ▸ hd)
    simp only [Frame.toggleAll, Bool.or_eq_true, Frame.toggle_hit, ih _ hn, List.mem_cons, exists_eq_or_imp]
    refine or_congr Iff.rfl (exists_congr fun d => and_congr_right fun hd => ?_)
    rw [same d hd]

/-- The cells a sprite names: those of its set bits. -/
theorem mem_spriteCells (rows : List Byte) (x y p q : Nat) :
    (p, q) ∈ spriteCells rows x y ↔
      ∃ line col, line < rows.length ∧ col < 8 ∧ spriteBit rows col line = true ∧ p = x + col ∧ q = y + line := by
  simp only [spriteCells, List.mem_flatMap, List.mem_map, List.mem_filter, List.mem_range, Prod.mk.injEq]
  constructor
  · rintro ⟨line, hl, col, ⟨hc, hb⟩, rfl, rfl⟩
    exact ⟨line, col, hl, hc, hb, rfl, rfl⟩
  · rintro ⟨line, col, hl, hc, hb, rfl, rfl⟩
    exact ⟨line, hl, col, ⟨hc, hb⟩, rfl, rfl⟩

/-- No two bits of a sprite name the same cell (44_display.md R120). -/
theorem nodup_spriteCells (rows : List Byte) (x y : Nat) : (spriteCells rows x y).Nodup := by
  unfold spriteCells
  refine List.nodup_flatMap.mpr ⟨fun line _ => ?_, ?_⟩
  · refine (List.nodup_range.filter _).map fun a b h => ?_
    simpa using h
  · refine List.nodup_range.imp fun {a b} h => ?_
    simp only [Function.onFun, List.disjoint_left, List.mem_map]
    rintro c ⟨i, -, rfl⟩ ⟨j, -, hj⟩
    simp only [Prod.mk.injEq] at hj
    omega

end Sys2Proof.Machine
end

