-- ==== Sys2Proof/Laws/Memory.lean ====
section
/-! SUPPORT. The laws of memory: a read after a write of the list form, what a run of byte writes leaves, and that
every memory operation keeps the canonical form. None of them needs the list to be canonical, but the last. -/

namespace Sys2Proof.Machine

/-! ### The list form -/

theorem Memory.read_insert_same (c : Host.Cell) (m : List Host.Cell) (h : ∀ d ∈ m, d.1 ≠ c.1) :
    Memory.read (Memory.insert c m) c.1 = c.2 := by
  induction m with
  | nil => simp [Memory.insert, Memory.read]
  | cons d m ih =>
    have hd : d.1 ≠ c.1 := h d (by simp)
    have hm := ih fun e he => h e (by simp [he])
    unfold Memory.insert
    split
    · simp [Memory.read]
    · simpa [Memory.read, List.find?_cons, hd] using hm

theorem Memory.read_insert_other (c : Host.Cell) (m : List Host.Cell) (a : Nat) (h : a ≠ c.1) :
    Memory.read (Memory.insert c m) a = Memory.read m a := by
  induction m with
  | nil => simp [Memory.insert, Memory.read, Ne.symm h]
  | cons d m ih =>
    unfold Memory.insert
    split
    · simp [Memory.read, List.find?_cons, Ne.symm h]
    · by_cases hd : d.1 = a
      · simp [Memory.read, hd]
      · simpa [Memory.read, List.find?_cons, hd] using ih

theorem Memory.read_filter_same (m : List Host.Cell) (a : Nat) :
    Memory.read (m.filter fun c => c.1 != a) a = Params.initialByte a := by
  have : (m.filter fun c => c.1 != a).find? (fun c => c.1 == a) = none := by
    simp [List.find?_eq_none]
  simp [Memory.read, this]

theorem Memory.read_filter_other (m : List Host.Cell) (a b : Nat) (h : b ≠ a) :
    Memory.read (m.filter fun c => c.1 != a) b = Memory.read m b := by
  induction m with
  | nil => rfl
  | cons d m ih =>
    by_cases ha : d.1 = a
    · have hb : d.1 ≠ b := fun e => h (e ▸ ha)
      simpa [Memory.read, List.find?_cons, ha, Ne.symm h] using ih
    · by_cases hb : d.1 = b
      · simp [Memory.read, hb, h]
      · simpa [Memory.read, List.find?_cons, ha, hb] using ih

/-- A read after a write to the same address gives the byte written, in any list. -/
theorem Memory.read_write_same (m : List Host.Cell) (a : Nat) (b : Byte) :
    Memory.read (Memory.write m a b) a = b := by
  simp only [Memory.write]
  split
  · next h => rw [Memory.read_filter_same, h]
  · exact Memory.read_insert_same (a, b) _ (by simp)

/-- A write leaves every other address alone, in any list. -/
theorem Memory.read_write_other (m : List Host.Cell) (a c : Nat) (b : Byte) (h : c ≠ a) :
    Memory.read (Memory.write m a b) c = Memory.read m c := by
  simp only [Memory.write]
  split
  · exact Memory.read_filter_other m a c h
  · rw [Memory.read_insert_other _ _ _ h, Memory.read_filter_other m a c h]

/-! ### The canonical form -/

theorem Memory.mem_insert (c d : Host.Cell) (m : List Host.Cell) :
    d ∈ Memory.insert c m ↔ d = c ∨ d ∈ m := by
  induction m with
  | nil => simp [Memory.insert]
  | cons e m ih =>
    unfold Memory.insert
    split
    · simp
    · simp only [List.mem_cons, ih]; tauto

theorem Memory.insert_pairwise (c : Host.Cell) (m : List Host.Cell)
    (hm : m.Pairwise fun x y => x.1 < y.1) (hc : ∀ d ∈ m, d.1 ≠ c.1) :
    (Memory.insert c m).Pairwise fun x y => x.1 < y.1 := by
  induction m with
  | nil => simp [Memory.insert]
  | cons d m ih =>
    obtain ⟨hd, hm'⟩ := List.pairwise_cons.mp hm
    unfold Memory.insert
    split
    · next h =>
      refine List.pairwise_cons.mpr ⟨fun e he => ?_, hm⟩
      rcases List.mem_cons.mp he with rfl | he
      · exact h
      · exact lt_trans h (hd e he)
    · next h =>
      refine List.pairwise_cons.mpr ⟨fun e he => ?_, ih hm' fun e he => hc e (by simp [he])⟩
      rcases (Memory.mem_insert c e m).mp he with rfl | he
      · exact lt_of_le_of_ne (not_lt.mp h) (hc d (by simp))
      · exact hd e he

/-- A write inside the address space keeps the canonical form. -/
theorem Memory.wf_write (m : List Host.Cell) (a : Nat) (b : Byte) (h : Memory.wf m) (ha : a < Config.memSize) :
    Memory.wf (Memory.write m a b) := by
  obtain ⟨hp, hc⟩ := h
  have hp' : (m.filter fun c => c.1 != a).Pairwise fun x y => x.1 < y.1 := hp.filter _
  simp only [Memory.write]
  split
  · exact ⟨hp', fun c hm => hc c (List.mem_of_mem_filter hm)⟩
  · next hb =>
    refine ⟨Memory.insert_pairwise _ _ hp' (by simp), fun c hm => ?_⟩
    rcases (Memory.mem_insert _ _ _).mp hm with rfl | hm
    · exact ⟨ha, hb⟩
    · exact hc c (List.mem_of_mem_filter hm)

theorem Memory.wf_nil : Memory.wf [] := by simp [Memory.wf]

theorem State.wf_reset : Memory.wf State.reset.mem := Memory.wf_nil

theorem State.wf_writeByte (s : State) (a : Nat) (b : Byte) (h : Memory.wf s.mem) :
    Memory.wf (s.writeByte a b).mem :=
  Memory.wf_write _ _ _ h (Nat.mod_lt _ (by decide))

theorem State.wf_writeWord (s : State) (a : Nat) (w : Word) (h : Memory.wf s.mem) :
    Memory.wf (s.writeWord a w).mem :=
  State.wf_writeByte _ _ _ (State.wf_writeByte _ _ _ h)

theorem State.wf_writeBytes (s : State) (a : Nat) (bs : List Byte) (h : Memory.wf s.mem) :
    Memory.wf (s.writeBytes a bs).mem := by
  induction bs generalizing s a with
  | nil => exact h
  | cons b bs ih => exact ih _ _ (State.wf_writeByte s a b h)

theorem State.wf_withFetchWord (s : State) (nbits w : Nat) (h : Memory.wf s.mem) :
    Memory.wf (s.withFetchWord nbits w).mem := by
  simpa [State.withFetchWord] using State.wf_writeBytes s s.pc.toNat (tableWordBytes nbits w) h

/-! ### The masked accesses of the state -/

/-- What one byte write leaves at every address, masked: one lemma for the same address and the others. -/
theorem State.readByte_writeByte (s : State) (a c : Nat) (b : Byte) :
    (s.writeByte a b).readByte c = if c % 4096 = a % 4096 then b else s.readByte c := by
  split
  · next h => simp only [State.readByte, State.writeByte, Config.memSize, h, Memory.read_write_same]
  · next h => simp only [State.readByte, State.writeByte, Memory.read_write_other _ _ _ _ h]

/-- The address a byte is read at counts only modulo 4096. -/
theorem State.readByte_congr (s : State) {a c : Nat} (h : a % 4096 = c % 4096) : s.readByte a = s.readByte c := by
  simp only [State.readByte, Config.memSize, h]

/-- A run of byte writes leaves every address outside it alone. -/
theorem State.readByte_writeBytes_other (s : State) (a : Nat) (bs : List Byte) (c : Nat)
    (h : ∀ k < bs.length, c % 4096 ≠ (a + k) % 4096) : (s.writeBytes a bs).readByte c = s.readByte c := by
  induction bs generalizing s a with
  | nil => rfl
  | cons b bs ih =>
    have h0 : c % 4096 ≠ a % 4096 := by simpa using h 0 (by simp)
    rw [State.writeBytes, ih, State.readByte_writeByte, if_neg h0]
    intro k hk
    have := h (k + 1) (by simpa using hk)
    rwa [Nat.add_assoc, Nat.add_comm 1 k]

/-- A run of at most 4096 byte writes leaves byte k at a + k. -/
theorem State.readByte_writeBytes_at (s : State) (a : Nat) (bs : List Byte) (k : Nat) (hk : k < bs.length)
    (hl : bs.length ≤ 4096) : (s.writeBytes a bs).readByte (a + k) = bs[k] := by
  induction bs generalizing s a k with
  | nil => simp at hk
  | cons b bs ih =>
    have hl' : bs.length + 1 ≤ 4096 := by simpa using hl
    cases k with
    | zero =>
      rw [State.writeBytes, State.readByte_writeBytes_other, State.readByte_writeByte]
      · simp
      · intro j hj; omega
    | succ k =>
      have hk' : k < bs.length := by simpa using hk
      rw [State.writeBytes, show a + (k + 1) = a + 1 + k by omega, ih _ _ _ hk' (by omega)]
      simp

/-- What a run of byte writes leaves in memory depends on the memory before it and on nothing else of the state. -/
theorem State.writeBytes_mem_congr {s u : State} (h : u.mem = s.mem) (a : Nat) (bs : List Byte) :
    (u.writeBytes a bs).mem = (s.writeBytes a bs).mem := by
  induction bs generalizing s u a with
  | nil => exact h
  | cons b bs ih => exact ih (by simp [h]) _

theorem State.readByte_writeBytes_congr {s u : State} (h : u.mem = s.mem) (a : Nat) (bs : List Byte) (c : Nat) :
    (u.writeBytes a bs).readByte c = (s.writeBytes a bs).readByte c := by
  simp only [State.readByte, State.writeBytes_mem_congr h]

@[simp] theorem State.length_readBytes (s : State) (a n : Nat) : (s.readBytes a n).length = n := by
  simp [State.readBytes]

@[simp] theorem State.getElem_readBytes (s : State) (a n k : Nat) (h : k < (s.readBytes a n).length) :
    (s.readBytes a n)[k] = s.readByte (a + k) := by
  simp [State.readBytes]

end Sys2Proof.Machine
end

