-- ==== Sys2Proof/Laws/Ops.lean ====
section
/-! SUPPORT. One lemma per shared operation that says everything it can do: the call stack, the timers, the key
table, the register runs of FX55 and FX65, and the host's events. Proofs cite these instead of unfolding. -/

namespace Sys2Proof.Machine

/-! ### pc arithmetic as numbers -/

theorem Addr.toNat_add_two (a : Addr) : (a + 2).toNat = (a.toNat + 2) % 4096 := by
  rw [BitVec.toNat_add]; rfl

theorem Addr.toNat_add_four (a : Addr) : (a + 4).toNat = (a.toNat + 4) % 4096 := by
  rw [BitVec.toNat_add]; rfl

/-! ### Call stack -/

/-- With no capacity every push succeeds (10_state.md R27). -/
theorem State.push_eq (s : State) (w : Word) : s.push w = some (s.setStack (w :: s.stack)) := rfl

theorem State.pop_nil (s : State) (h : s.stack = []) : s.pop = none := by simp [State.pop, h]

theorem State.pop_cons (s : State) (w : Word) (ws : List Word) (h : s.stack = w :: ws) :
    s.pop = some (w, s.setStack ws) := by simp [State.pop, h]

theorem State.peekStack_nil (s : State) (h : s.stack = []) : s.peekStack = none := by simp [State.peekStack, h]

theorem State.peekStack_cons (s : State) (w : Word) (ws : List Word) (h : s.stack = w :: ws) :
    s.peekStack = some w := by simp [State.peekStack, h]

theorem State.stackIsEmpty_iff (s : State) : s.stackIsEmpty = true ↔ s.stackSize = 0 := by
  simp [State.stackIsEmpty, State.stackSize]

/-! ### Timers -/

/-- A timer write of 0 does nothing (45_timers.md R124). -/
theorem State.setTimer_zero (s : State) (t : Timer) : s.setTimer t 0 = s := rfl

/-- A timer write of n above 0 loads n, with `start()` exactly when the sound timer was at 0 (45_timers.md R124). -/
theorem State.setTimer_pos (s : State) (t : Timer) (n : Byte) (h : n ≠ 0) :
    s.setTimer t n = if s.count t = 0 then (s.setCount t n).emitEdge t .start else s.setCount t n := by
  simp only [State.setTimer, if_neg h]

/-- A tick at 0 does nothing (60_exceptions.md R147). -/
theorem State.tick_zero (s : State) (t : Timer) (h : s.count t = 0) : s.tick t = s := by
  simp only [State.tick, if_pos h]

/-- A tick above 0 counts down, with `stop()` exactly when the sound timer reaches 0 (60_exceptions.md R147). -/
theorem State.tick_pos (s : State) (t : Timer) (h : s.count t ≠ 0) :
    s.tick t = if s.count t = 1 then (s.setCount t 0).emitEdge t .stop else s.setCount t (s.count t - 1) := by
  simp only [State.tick, if_neg h]

/-! The two timers are independent, and only the sound timer has edges (60_exceptions.md R147, R149). -/

@[simp] theorem State.setCount_sound_dt (s : State) (n : Byte) : (s.setCount .sound n).dt = s.dt := rfl
@[simp] theorem State.setCount_delay_st (s : State) (n : Byte) : (s.setCount .delay n).st = s.st := rfl
@[simp] theorem State.setCount_sound_st (s : State) (n : Byte) : (s.setCount .sound n).st = n := rfl
@[simp] theorem State.setCount_delay_dt (s : State) (n : Byte) : (s.setCount .delay n).dt = n := rfl

@[simp] theorem State.setTimer_sound_dt (s : State) (n : Byte) : (s.setTimer .sound n).dt = s.dt := by
  by_cases h : n = 0
  · rw [h, s.setTimer_zero]
  · rw [s.setTimer_pos _ _ h]; split <;> rfl

@[simp] theorem State.setTimer_delay_st (s : State) (n : Byte) : (s.setTimer .delay n).st = s.st := by
  by_cases h : n = 0
  · rw [h, s.setTimer_zero]
  · rw [s.setTimer_pos _ _ h]; split <;> rfl

@[simp] theorem State.setTimer_delay_trace (s : State) (n : Byte) : (s.setTimer .delay n).trace = s.trace := by
  by_cases h : n = 0
  · rw [h, s.setTimer_zero]
  · rw [s.setTimer_pos _ _ h]; split <;> rfl

@[simp] theorem State.tick_sound_dt (s : State) : (s.tick .sound).dt = s.dt := by
  unfold State.tick; split; · rfl
  split <;> rfl

@[simp] theorem State.tick_delay_st (s : State) : (s.tick .delay).st = s.st := by
  unfold State.tick; split; · rfl
  split <;> rfl

@[simp] theorem State.tick_delay_trace (s : State) : (s.tick .delay).trace = s.trace := by
  unfold State.tick; split; · rfl
  split <;> rfl

/-! ### Keypad -/

/-- A key test holds exactly for the code of a DOWN key (46_keypad.md R128). -/
theorem State.keyDown_iff (s : State) (b : Byte) :
    s.keyDown b = true ↔ ∃ k : KeyCode, k.val = b.toNat ∧ s.key k = .down := by
  unfold State.keyDown
  split
  · next h =>
    constructor
    · intro e; exact ⟨⟨b.toNat, h⟩, rfl, by simpa using e⟩
    · rintro ⟨k, hk, hd⟩
      have : (⟨b.toNat, h⟩ : KeyCode) = k := Fin.ext hk.symm
      simpa [this] using hd
  · next h =>
    constructor
    · intro e; cases e
    · rintro ⟨k, hk, -⟩; exact absurd (hk ▸ k.isLt) h

theorem State.downKeys_eq_nil_iff (s : State) : s.downKeys = [] ↔ ∀ k : KeyCode, s.key k = .up := by
  have h : ∀ c : KeyState, c ≠ .down ↔ c = .up := by intro c; cases c <;> decide
  simp [State.downKeys, List.filter_eq_nil_iff, h]

/-- The first of the DOWN keys is the lowest (46_keypad.md R133). -/
theorem State.downKeys_head (s : State) (k : KeyCode) (ks : List KeyCode) (h : s.downKeys = k :: ks) :
    s.key k = .down ∧ ∀ j : KeyCode, s.key j = .down → k ≤ j := by
  have hmem : ∀ j, j ∈ s.downKeys ↔ s.key j = .down := by simp [State.downKeys]
  have hsort : s.downKeys.Pairwise (· < ·) := (List.pairwise_lt_finRange 16).filter _
  rw [h] at hsort hmem
  refine ⟨(hmem k).mp (by simp), fun j hj => ?_⟩
  rcases List.mem_cons.mp ((hmem j).mpr hj) with rfl | hj
  · exact le_refl _
  · exact le_of_lt ((List.pairwise_cons.mp hsort).1 j hj)

/-! ### Register runs -/

@[simp] theorem mem_regsUpTo (x q : Reg) : q ∈ regsUpTo x ↔ q ≤ x := by
  simp [regsUpTo]

theorem length_regsUpTo (x : Reg) : (regsUpTo x).length = x.val + 1 := by
  revert x; decide

theorem getElem_regsUpTo (x : Reg) (k : Nat) (h : k < (regsUpTo x).length) : ((regsUpTo x)[k]).val = k := by
  revert k; revert x; decide

/-- What loading a list of registers leaves in every register (43_index_memory.md R115). -/
theorem State.loadRegs_reg (s : State) (ks : List Reg) (q : Reg) :
    (s.loadRegs ks).reg q = if q ∈ ks then s.readByte (s.index.toNat + q.val) else s.reg q := by
  induction ks generalizing s with
  | nil => simp [State.loadRegs]
  | cons k ks ih =>
    rw [State.loadRegs, ih]
    by_cases hq : q ∈ ks
    · simp [hq]
    · by_cases hk : q = k <;> simp [hq, hk]

/-- This hardware leaves I alone (43_index_memory.md R116). -/
@[simp] theorem State.blockIndex_eq (s : State) (x : Reg) : s.blockIndex x = s := rfl

/-! ### The step -/

/-- A step takes the next event and applies it (60_exceptions.md R142). -/
theorem step_eq (s : State) : step s = applyEvent s.nextInput s.takeInput := rfl

/-- A scheduled event comes first (log entry 2). -/
theorem input_of_cons (s : State) (e : Event) (es : List Event) (h : s.schedule = e :: es) :
    s.nextInput = e ∧ s.takeInput = s.setSchedule es := by
  simp only [State.nextInput, State.takeInput, h, and_self]

/-- After the schedule a host may send `Step` events only (log entry 2). -/
theorem input_of_steps (s : State) (h : s.schedule = []) (he : s.scheduleEnd = .stepsOnly) :
    s.nextInput = .step ∧ s.takeInput = s := by
  simp only [State.nextInput, State.takeInput, h, he, and_self]

/-- After the schedule a host may send any events (log entry 2). -/
theorem input_of_any (s : State) (h : s.schedule = []) (he : s.scheduleEnd = .anyEvent) :
    s.nextInput = Config.hostEvent s.inputs ∧ s.takeInput = s.countInput := by
  simp only [State.nextInput, State.takeInput, h, he, and_self]

theorem cpuStep_running (s : State) (h : s.mode = .running) : cpuStep s = runningStep s := by
  simp only [cpuStep, h]

theorem cpuStep_blocked (s : State) (h : s.mode = .blockedForInput) : cpuStep s = .next (blockedStep s) := by
  simp only [cpuStep, h]

theorem runningStep_ok (s : State) (i : Instr) (h : decode s.fetch = .ok i) : runningStep s = exec i s := by
  simp only [runningStep, h]

theorem runningStep_error (s : State) (r : Reject) (h : decode s.fetch = .error r) :
    runningStep s = .next (execUnknown s.fetch s) := by
  simp only [runningStep, h]

/-- Everything a blocked step can do (46_keypad.md R132, R133). -/
theorem blockedStep_cases (s : State) :
    ((∀ k : KeyCode, s.key k = .up) ∧ blockedStep s = s) ∨
    ∃ k : KeyCode, s.key k = .down ∧ (∀ j : KeyCode, s.key j = .down → k ≤ j) ∧
      blockedStep s = ((s.setReg s.waitReg (BitVec.ofNat 8 k.val)).setMode .running).advance := by
  cases h : s.downKeys with
  | nil => exact .inl ⟨s.downKeys_eq_nil_iff.mp h, by simp only [blockedStep, h]⟩
  | cons k ks =>
    obtain ⟨hd, hl⟩ := s.downKeys_head k ks h
    exact .inr ⟨k, hd, hl, by simp only [blockedStep, h]; rfl⟩

end Sys2Proof.Machine
end

