-- ==== Sys2Proof/Laws/PerInstr.lean ====
section
/-! SUPPORT. Statements made per instruction, one lemma per constructor: the family MatchesRow. -/

namespace Sys2Proof.Laws

/-! ### What the four shapes of an encoded word select -/

theorem selects_family (name : String) (c : Word) (op : Nibble) (nnn : Addr) (h : formatNNN op 0 = c) :
    (OpcodeRow.mk name c 0xF000#16).selects (formatNNN op nnn) = true := by
  simp only [OpcodeRow.selects, formatNNN_family, h, beq_self_eq_true]

theorem selects_familyXNN (name : String) (c : Word) (op : Nibble) (x : Reg) (nn : Byte) (h : formatNNN op 0 = c) :
    (OpcodeRow.mk name c 0xF000#16).selects (formatXNN op x nn) = true := by
  simp only [OpcodeRow.selects, and_family, opField_formatXNN, h, beq_self_eq_true]

theorem selects_familyXYN (name : String) (c : Word) (op : Nibble) (x y : Reg) (n : Nibble)
    (h : formatNNN op 0 = c) : (OpcodeRow.mk name c 0xF000#16).selects (formatXYN op x y n) = true := by
  simp only [OpcodeRow.selects, and_family, opField_formatXYN, h, beq_self_eq_true]

theorem selects_functionByte (name : String) (c : Word) (op : Nibble) (x : Reg) (nn : Byte)
    (h : formatXNN op 0 nn = c) : (OpcodeRow.mk name c 0xF0FF#16).selects (formatXNN op x nn) = true := by
  simp only [OpcodeRow.selects, formatXNN_function, h, beq_self_eq_true]

theorem selects_functionNibble (name : String) (c : Word) (op : Nibble) (x y : Reg) (n : Nibble)
    (h : formatXYN op 0 0 n = c) : (OpcodeRow.mk name c 0xF00F#16).selects (formatXYN op x y n) = true := by
  simp only [OpcodeRow.selects, formatXYN_function, h, beq_self_eq_true]

/-! ### The family -/

namespace MatchesRow

/-- The instruction's word selects the row of the opcode map that has the instruction's mnemonic
(30_encoding.md R66, R68). -/
def Statement (i : Instr) : Prop := ∃ row ∈ opcodeTable, row.mnemonic = i.mnemonic ∧ row.selects (encode i) = true

theorem cls : Statement .cls :=
  ⟨⟨"CLS", 0x00E0, 0xFFFF⟩, by decide, rfl, by decide⟩

theorem ret : Statement .ret :=
  ⟨⟨"RET", 0x00EE, 0xFFFF⟩, by decide, rfl, by decide⟩

theorem jp (nnn : Addr) : Statement (.jp nnn) :=
  ⟨⟨"JP", 0x1000, 0xF000⟩, by decide, rfl, selects_family _ _ 0x1 nnn (by decide)⟩

theorem call (nnn : Addr) : Statement (.call nnn) :=
  ⟨⟨"CALL", 0x2000, 0xF000⟩, by decide, rfl, selects_family _ _ 0x2 nnn (by decide)⟩

theorem seImm (x : Reg) (nn : Byte) : Statement (.seImm x nn) :=
  ⟨⟨"SE_IMM", 0x3000, 0xF000⟩, by decide, rfl, selects_familyXNN _ _ 0x3 x nn (by decide)⟩

theorem sneImm (x : Reg) (nn : Byte) : Statement (.sneImm x nn) :=
  ⟨⟨"SNE_IMM", 0x4000, 0xF000⟩, by decide, rfl, selects_familyXNN _ _ 0x4 x nn (by decide)⟩

theorem seReg (x y : Reg) : Statement (.seReg x y) :=
  ⟨⟨"SE_REG", 0x5000, 0xF00F⟩, by decide, rfl, selects_functionNibble _ _ 0x5 x y 0x0 (by decide)⟩

theorem ldImm (x : Reg) (nn : Byte) : Statement (.ldImm x nn) :=
  ⟨⟨"LD_IMM", 0x6000, 0xF000⟩, by decide, rfl, selects_familyXNN _ _ 0x6 x nn (by decide)⟩

theorem addImm (x : Reg) (nn : Byte) : Statement (.addImm x nn) :=
  ⟨⟨"ADD_IMM", 0x7000, 0xF000⟩, by decide, rfl, selects_familyXNN _ _ 0x7 x nn (by decide)⟩

theorem ldReg (x y : Reg) : Statement (.ldReg x y) :=
  ⟨⟨"LD_REG", 0x8000, 0xF00F⟩, by decide, rfl, selects_functionNibble _ _ 0x8 x y 0x0 (by decide)⟩

theorem orReg (x y : Reg) : Statement (.orReg x y) :=
  ⟨⟨"OR", 0x8001, 0xF00F⟩, by decide, rfl, selects_functionNibble _ _ 0x8 x y 0x1 (by decide)⟩

theorem andReg (x y : Reg) : Statement (.andReg x y) :=
  ⟨⟨"AND", 0x8002, 0xF00F⟩, by decide, rfl, selects_functionNibble _ _ 0x8 x y 0x2 (by decide)⟩

theorem xorReg (x y : Reg) : Statement (.xorReg x y) :=
  ⟨⟨"XOR", 0x8003, 0xF00F⟩, by decide, rfl, selects_functionNibble _ _ 0x8 x y 0x3 (by decide)⟩

theorem addReg (x y : Reg) : Statement (.addReg x y) :=
  ⟨⟨"ADD_REG", 0x8004, 0xF00F⟩, by decide, rfl, selects_functionNibble _ _ 0x8 x y 0x4 (by decide)⟩

theorem sub (x y : Reg) : Statement (.sub x y) :=
  ⟨⟨"SUB", 0x8005, 0xF00F⟩, by decide, rfl, selects_functionNibble _ _ 0x8 x y 0x5 (by decide)⟩

theorem shr (x y : Reg) : Statement (.shr x y) :=
  ⟨⟨"SHR", 0x8006, 0xF00F⟩, by decide, rfl, selects_functionNibble _ _ 0x8 x y 0x6 (by decide)⟩

theorem subn (x y : Reg) : Statement (.subn x y) :=
  ⟨⟨"SUBN", 0x8007, 0xF00F⟩, by decide, rfl, selects_functionNibble _ _ 0x8 x y 0x7 (by decide)⟩

theorem shl (x y : Reg) : Statement (.shl x y) :=
  ⟨⟨"SHL", 0x800E, 0xF00F⟩, by decide, rfl, selects_functionNibble _ _ 0x8 x y 0xE (by decide)⟩

theorem sneReg (x y : Reg) : Statement (.sneReg x y) :=
  ⟨⟨"SNE_REG", 0x9000, 0xF00F⟩, by decide, rfl, selects_functionNibble _ _ 0x9 x y 0x0 (by decide)⟩

theorem ldI (nnn : Addr) : Statement (.ldI nnn) :=
  ⟨⟨"LD_I", 0xA000, 0xF000⟩, by decide, rfl, selects_family _ _ 0xA nnn (by decide)⟩

theorem jpV0 (nnn : Addr) : Statement (.jpV0 nnn) :=
  ⟨⟨"JP_V0", 0xB000, 0xF000⟩, by decide, rfl, selects_family _ _ 0xB nnn (by decide)⟩

theorem rnd (x : Reg) (nn : Byte) : Statement (.rnd x nn) :=
  ⟨⟨"RND", 0xC000, 0xF000⟩, by decide, rfl, selects_familyXNN _ _ 0xC x nn (by decide)⟩

theorem drw (x y : Reg) (n : Nibble) : Statement (.drw x y n) :=
  ⟨⟨"DRW", 0xD000, 0xF000⟩, by decide, rfl, selects_familyXYN _ _ 0xD x y n (by decide)⟩

theorem skp (x : Reg) : Statement (.skp x) :=
  ⟨⟨"SKP", 0xE09E, 0xF0FF⟩, by decide, rfl, selects_functionByte _ _ 0xE x 0x9E (by decide)⟩

theorem sknp (x : Reg) : Statement (.sknp x) :=
  ⟨⟨"SKNP", 0xE0A1, 0xF0FF⟩, by decide, rfl, selects_functionByte _ _ 0xE x 0xA1 (by decide)⟩

theorem ldVxDt (x : Reg) : Statement (.ldVxDt x) :=
  ⟨⟨"LD_VX_DT", 0xF007, 0xF0FF⟩, by decide, rfl, selects_functionByte _ _ 0xF x 0x07 (by decide)⟩

theorem ldVxK (x : Reg) : Statement (.ldVxK x) :=
  ⟨⟨"LD_VX_K", 0xF00A, 0xF0FF⟩, by decide, rfl, selects_functionByte _ _ 0xF x 0x0A (by decide)⟩

theorem ldDtVx (x : Reg) : Statement (.ldDtVx x) :=
  ⟨⟨"LD_DT_VX", 0xF015, 0xF0FF⟩, by decide, rfl, selects_functionByte _ _ 0xF x 0x15 (by decide)⟩

theorem ldStVx (x : Reg) : Statement (.ldStVx x) :=
  ⟨⟨"LD_ST_VX", 0xF018, 0xF0FF⟩, by decide, rfl, selects_functionByte _ _ 0xF x 0x18 (by decide)⟩

theorem addI (x : Reg) : Statement (.addI x) :=
  ⟨⟨"ADD_I", 0xF01E, 0xF0FF⟩, by decide, rfl, selects_functionByte _ _ 0xF x 0x1E (by decide)⟩

theorem ldF (x : Reg) : Statement (.ldF x) :=
  ⟨⟨"LD_F", 0xF029, 0xF0FF⟩, by decide, rfl, selects_functionByte _ _ 0xF x 0x29 (by decide)⟩

theorem ldB (x : Reg) : Statement (.ldB x) :=
  ⟨⟨"LD_B", 0xF033, 0xF0FF⟩, by decide, rfl, selects_functionByte _ _ 0xF x 0x33 (by decide)⟩

theorem ldMemVx (x : Reg) : Statement (.ldMemVx x) :=
  ⟨⟨"LD_MEM_VX", 0xF055, 0xF0FF⟩, by decide, rfl, selects_functionByte _ _ 0xF x 0x55 (by decide)⟩

theorem ldVxMem (x : Reg) : Statement (.ldVxMem x) :=
  ⟨⟨"LD_VX_MEM", 0xF065, 0xF0FF⟩, by decide, rfl, selects_functionByte _ _ 0xF x 0x65 (by decide)⟩

end MatchesRow

end Sys2Proof.Laws
end

