-- ==== Sys2Proof/Laws/Step.lean ====
section
/-! SUPPORT. What one step can do, said once: the next event is the CPU's or one of the host's; a CPU step executes,
reports an unknown word, or is a blocked step. Invariants are proved from these and never unfold the step. -/

namespace Sys2Proof.Machine

/-- What a host event other than `Step` leaves (60_exceptions.md R143, R144, R147). -/
def HostMove (s t : State) : Prop :=
  t = s.tick .delay ∨ t = s.tick .sound ∨ (∃ k c, t = s.setKey k c) ∨ t = s.setFrameUpdated false

/-- What a CPU step leaves (40_cycle.md R76, R77, R82; 46_keypad.md R132). -/
def CpuMove (s t : State) : Prop :=
  (s.mode = .running ∧ ∃ i, decode s.fetch = .ok i ∧ exec i s = .next t) ∨
  (s.mode = .running ∧ (∃ r, decode s.fetch = .error r) ∧ t = execUnknown s.fetch s) ∨
  (s.mode = .blockedForInput ∧ t = blockedStep s)

theorem cpuStep_cases {s t : State} (h : cpuStep s = .next t) : CpuMove s t := by
  cases hm : s.mode with
  | running =>
    rw [cpuStep_running s hm] at h
    cases hd : decode s.fetch with
    | ok i => exact .inl ⟨hm, i, hd, (runningStep_ok s i hd).symm.trans h⟩
    | error r =>
      rw [runningStep_error s r hd] at h
      injection h with h
      exact .inr (.inl ⟨hm, ⟨r, hd⟩, h.symm⟩)
  | blockedForInput =>
    rw [cpuStep_blocked s hm] at h
    injection h with h
    exact .inr (.inr ⟨hm, h.symm⟩)

/-- Everything one step can do, to the state with its event taken: a CPU step when that is the next event, else one
host event. -/
theorem step_cases {s t : State} (h : step s = .next t) :
    (StepsNext s ∧ CpuMove s.takeInput t) ∨ HostMove s.takeInput t := by
  rw [step_eq] at h
  cases he : s.nextInput with
  | step => rw [he] at h; exact .inl ⟨he, cpuStep_cases h⟩
  | delayTick => rw [he] at h; injection h with h; exact .inr (.inl h.symm)
  | soundTick => rw [he] at h; injection h with h; exact .inr (.inr (.inl h.symm))
  | press k => rw [he] at h; injection h with h; exact .inr (.inr (.inr (.inl ⟨k, _, h.symm⟩)))
  | release k => rw [he] at h; injection h with h; exact .inr (.inr (.inr (.inl ⟨k, _, h.symm⟩)))
  | ack => rw [he] at h; injection h with h; exact .inr (.inr (.inr (.inr h.symm)))

end Sys2Proof.Machine
end

