-- ==== Sys2Proof/Tests/Slice0.lean ====
section
/-! SUPPORT. The model's own tests. Expected values come from spec/95_test_vectors.md (a vector is named V<n>) or from
the rule named; no expected value is the model's own answer. The witnesses show that the hypotheses of each statement
can be met together, at the values where its clauses meet. -/

namespace Sys2Proof.Machine

/-- What a test looks at in the state an outcome gives, `none` when it gives no next state. -/
def after {α : Type} (o : Host.Outcome State Fault Refusal) (look : State → α) : Option α :=
  match o with
  | .next t => some (look t)
  | .fault _ => none
  | .refused _ => none

/-- The reset state with register values. -/
def withRegs (rs : List (Reg × Byte)) : State := rs.foldl (fun s r => s.setReg r.1 r.2) State.reset

/-- The reset state with a word where the next step fetches. -/
def holding (w : Nat) : State := State.reset.withFetchWord 16 w

/-- V1 and VF after an instruction on V1 and V2, with VF = 0 before (the vectors of V42). -/
def alu (i : Instr) (v1 v2 : Byte) : Option (Byte × Byte × Addr) :=
  after (exec i (withRegs [(1, v1), (2, v2)])) fun t => (t.reg 1, t.reg 0xF, t.pc)

/-! ### WellFormed refuses an ill-formed term for each of its checks -/

/-- 30_encoding.md R71, V30.3 to V30.9: a word of each unknown class, and known words beside them. -/
theorem test_wordKnown_refuses : ([0x0000, 0x00E1, 0x5121, 0x8AB8, 0x8ABD, 0x8ABF, 0x9ABF, 0xE19F, 0xF00B, 0xF066,
    0xFABC].all fun w => !wordKnown w) ∧ ([0x00E0, 0x00EE, 0x5120, 0x8AB7, 0x8ABE, 0x9AB0, 0xE1A1, 0xF065].all
    wordKnown) := by decide

/-- 00_scope.md R8: a font that overlaps the program, a start above 0xFFF; this hardware's layout is accepted. -/
theorem test_layoutOk_refuses : layoutOk 0x1B1 0x200 = false ∧ layoutOk 0 0x1000 = false ∧
    layoutOk 0x1B0 0x200 = true ∧ layoutOk Params.fontBase Params.progStart = true := by decide

/-- V70.2, V70.3: 3584 bytes fit, 3585 do not. -/
theorem test_programFits_refuses : programFits 3585 = false ∧ programFits 3584 = true := by decide

/-! ### Decoding: words written out from the patterns of 30_encoding.md R68 -/

/-- V30.1, V30.2 and the jumps. -/
theorem test_decode_flow :
    decode 0b0000000011100000#16 = .ok .cls ∧ decode 0b0000000011101110#16 = .ok .ret ∧
    decode 0b0001001000101000#16 = .ok (.jp 0x228) ∧ decode 0b0010001000010000#16 = .ok (.call 0x210) ∧
    decode 0b1011001100000000#16 = .ok (.jpV0 0x300) ∧ decode 0b1010111111111110#16 = .ok (.ldI 0xFFE) :=
  ⟨rfl, rfl, rfl, rfl, rfl, rfl⟩

/-- Families 3, 4, 5, 9 (V30.4, V30.5). -/
theorem test_decode_skips :
    decode 0b0011101001000010#16 = .ok (.seImm 0xA 0x42) ∧ decode 0b0100001100010001#16 = .ok (.sneImm 3 0x11) ∧
    decode 0b0101000100100000#16 = .ok (.seReg 1 2) ∧ decode 0b1001101010110000#16 = .ok (.sneReg 0xA 0xB) :=
  ⟨rfl, rfl, rfl, rfl⟩

/-- Families 6, 7, C, D. -/
theorem test_decode_immediates :
    decode 0b0110101001000010#16 = .ok (.ldImm 0xA 0x42) ∧ decode 0b0111000111111111#16 = .ok (.addImm 1 0xFF) ∧
    decode 0b1100001100001111#16 = .ok (.rnd 3 0x0F) ∧ decode 0b1101000100100101#16 = .ok (.drw 1 2 5) :=
  ⟨rfl, rfl, rfl, rfl⟩

/-- Family 8 (V30.6). -/
theorem test_decode_alu :
    decode 0b1000101010110000#16 = .ok (.ldReg 0xA 0xB) ∧ decode 0b1000101010110001#16 = .ok (.orReg 0xA 0xB) ∧
    decode 0b1000101010110010#16 = .ok (.andReg 0xA 0xB) ∧ decode 0b1000101010110011#16 = .ok (.xorReg 0xA 0xB) ∧
    decode 0b1000101010110100#16 = .ok (.addReg 0xA 0xB) ∧ decode 0b1000101010110101#16 = .ok (.sub 0xA 0xB) ∧
    decode 0b1000101010110110#16 = .ok (.shr 0xA 0xB) ∧ decode 0b1000101010110111#16 = .ok (.subn 0xA 0xB) ∧
    decode 0b1000101010111110#16 = .ok (.shl 0xA 0xB) := ⟨rfl, rfl, rfl, rfl, rfl, rfl, rfl, rfl, rfl⟩

/-- Family E (V30.7) and the timers and key wait of family F. -/
theorem test_decode_keys_timers :
    decode 0b1110010110011110#16 = .ok (.skp 5) ∧ decode 0b1110010110100001#16 = .ok (.sknp 5) ∧
    decode 0b1111001100000111#16 = .ok (.ldVxDt 3) ∧ decode 0b1111001000001010#16 = .ok (.ldVxK 2) ∧
    decode 0b1111000000010101#16 = .ok (.ldDtVx 0) ∧ decode 0b1111000100011000#16 = .ok (.ldStVx 1) :=
  ⟨rfl, rfl, rfl, rfl, rfl, rfl⟩

/-- The index and memory functions of family F (V30.8). -/
theorem test_decode_memory :
    decode 0b1111001000011110#16 = .ok (.addI 2) ∧ decode 0b1111000000101001#16 = .ok (.ldF 0) ∧
    decode 0b1111000000110011#16 = .ok (.ldB 0) ∧ decode 0b1111001001010101#16 = .ok (.ldMemVx 2) ∧
    decode 0b1111111101100101#16 = .ok (.ldVxMem 0xF) := ⟨rfl, rfl, rfl, rfl, rfl⟩

/-- V30.3 to V30.9: each unknown class by its name, at words next to known ones. -/
theorem test_decode_unknown :
    decode 0x0000 = .error .unknown0NNN ∧ decode 0x00E1 = .error .unknown0NNN ∧ decode 0x0123 = .error .unknown0NNN ∧
    decode 0x5121 = .error .unknown5XYn ∧ decode 0x8AB8 = .error .unknown8XYn ∧ decode 0x8ABD = .error .unknown8XYn ∧
    decode 0x8ABF = .error .unknown8XYn ∧ decode 0x9ABF = .error .unknown9XYn ∧ decode 0xE19F = .error .unknownEXkk ∧
    decode 0xF00B = .error .unknownFXkk ∧ decode 0xF066 = .error .unknownFXkk ∧ decode 0xFABC = .error .unknownFXkk :=
  ⟨rfl, rfl, rfl, rfl, rfl, rfl, rfl, rfl, rfl, rfl, rfl, rfl⟩

/-- 30_encoding.md R63, 20_memory.md R43: the high byte comes first; one byte is too short; the rest is handed back. -/
theorem test_decode_bytes : decodeBytes [0x12, 0x28, 0x60] = .ok (.jp 0x228, [0x60]) ∧
    decodeBytes [0x12] = .error .short ∧ decodeTableWord 16 0x1228 = some (.jp 0x228) ∧
    decodeTableWord 16 0x5121 = none := ⟨rfl, rfl, by decide, by decide⟩

/-! ### Memory and reset -/

/-- V20.1, V20.2: big-endian fetch; at 0xFFF the low byte is the font's first byte. -/
theorem test_fetch : (((State.reset.setPc 0x300).writeByte 0x300 0x12).writeByte 0x301 0x34).fetch = 0x1234 ∧
    ((State.reset.setPc 0xFFF).writeByte 0xFFF 0x12).fetch = 0x12F0 := by decide

/-- S1, S2: an address above 0xFFF is masked; a word at 0xFFF wraps to 0x000. -/
theorem test_masked_access : (State.reset.writeByte 0x1300 7).readByte 0x300 = 7 ∧
    (State.reset.writeWord 0xFFF 0xABCD).readByte 0x000 = 0xCD ∧
    (State.reset.writeWord 0xFFF 0xABCD).readWord 0xFFF = 0xABCD := by decide

/-- V20.3, V20.4, V70.1: the font's first and last glyph, and 0x00 after it. -/
theorem test_reset_memory : State.reset.readBytes 0 5 = [0xF0, 0x90, 0x90, 0x90, 0xF0] ∧
    State.reset.readBytes 0x04B 6 = [0xF0, 0x80, 0xF0, 0x80, 0x80, 0x00] ∧ State.reset.readByte 0x200 = 0 := by decide

/-- The canonical form: writing the byte an unlisted address reads as removes the entry (log entry 3). -/
theorem test_canonical_memory : ((State.reset.writeByte 0x300 1).writeByte 0x300 0).mem = [] ∧
    ((State.reset.writeByte 0x300 1).writeByte 0x2FF 2).mem = [(0x2FF, 2), (0x300, 1)] ∧
    ¬ Memory.wf [(0x300, 1), (0x2FF, 2)] ∧ ¬ Memory.wf [(0x300, 0)] ∧ ¬ Memory.wf [(0x1000, 1)] := by decide

/-- V70.1: a two-byte program is loaded at 0x200, the pc is there, and the core is running. -/
theorem test_construct : after (construct (some [0x12, 0x00]))
    (fun t => (t.readBytes 0x200 2, t.pc, t.mode)) = some ([0x12, 0x00], 0x200, .running) := by decide

/-! ### Control transfer and skips -/

/-- V41.1, V41.2. -/
theorem test_jp : after (exec (.jp 0x228) State.reset) (·.pc) = some 0x228 ∧
    after (exec (.jp 0x200) State.reset) (·.pc) = some 0x200 := by decide

/-- V41.3, V41.4: the pushed address wraps. -/
theorem test_call : after (exec (.call 0x210) (State.reset.setPc 0x204)) (fun t => (t.stack, t.pc)) =
    some ([0x206], 0x210) ∧
    after (exec (.call 0x300) (State.reset.setPc 0xFFE)) (fun t => (t.stack, t.pc)) = some ([0x000], 0x300) := by decide

/-- S7, 10_state.md R26: the six operations of the call stack, on the empty stack and on two entries. -/
theorem test_stack_operations : State.reset.pop = none ∧ State.reset.peekStack = none ∧
    State.reset.stackIsEmpty = true ∧ (State.reset.setStack [0x30A, 0x206]).pop.map (·.1) = some 0x30A ∧
    (State.reset.setStack [0x30A, 0x206]).peekStack = some 0x30A ∧
    (State.reset.setStack [0x30A, 0x206]).stackSize = 2 ∧ (State.reset.setStack [0x30A]).stackIsEmpty = false ∧
    (State.reset.setStack [0x30A]).clearStack.stack = [] ∧
    (State.reset.push 0x206).map (·.stack) = some [0x206] := by decide

/-- V41.5, V41.6: pop, and the empty stack. -/
theorem test_ret : after (exec .ret ((State.reset.setPc 0x212).setStack [0x206])) (fun t => (t.stack, t.pc)) =
    some ([], 0x206) ∧
    after (exec .ret (State.reset.setPc 0x212)) (fun t => (t.stack, t.pc)) = some ([], 0x212) := by decide

/-- V41.7, V40.3: taken, not taken, and wrapping at 0xFFE. -/
theorem test_seImm : after (exec (.seImm 3 0x10) ((withRegs [(3, 0x10)]).setPc 0x300)) (·.pc) = some 0x304 ∧
    after (exec (.seImm 3 0x11) ((withRegs [(3, 0x10)]).setPc 0x300)) (·.pc) = some 0x302 ∧
    after (exec (.seImm 0 0x05) ((withRegs [(0, 5)]).setPc 0xFFE)) (·.pc) = some 0x002 := by decide

/-- V41.8. -/
theorem test_sneImm : after (exec (.sneImm 3 0x11) ((withRegs [(3, 0x10)]).setPc 0x300)) (·.pc) = some 0x304 ∧
    after (exec (.sneImm 3 0x10) ((withRegs [(3, 0x10)]).setPc 0x300)) (·.pc) = some 0x302 := by decide

/-- V41.9, V41.10. -/
theorem test_seReg : after (exec (.seReg 1 2) ((withRegs [(1, 7), (2, 7)]).setPc 0x20A)) (·.pc) = some 0x20E ∧
    after (exec (.seReg 1 2) ((withRegs [(1, 7), (2, 8)]).setPc 0x20A)) (·.pc) = some 0x20C := by decide

/-- V41.9, 41_flow.md R92. -/
theorem test_sneReg : after (exec (.sneReg 1 2) ((withRegs [(1, 7), (2, 7)]).setPc 0x20A)) (·.pc) = some 0x20C ∧
    after (exec (.sneReg 1 2) ((withRegs [(1, 7), (2, 8)]).setPc 0x20A)) (·.pc) = some 0x20E := by decide

/-- V41.11, V41.12: V0, not VX, is added, and the sum wraps. -/
theorem test_jpV0 : after (exec (.jpV0 0x300) (withRegs [(0, 4), (3, 9)])) (·.pc) = some 0x304 ∧
    after (exec (.jpV0 0xFFF) (withRegs [(0, 0xFF)])) (·.pc) = some 0x0FE := by decide

/-! ### Arithmetic -/

/-- V42.1, V42.2, V42.3: VF is not written, and a carry is lost. -/
theorem test_loads : alu (.ldImm 1 0x42) 0 0 = some (0x42, 0, 0x202) ∧
    alu (.addImm 1 0x03) 0xFE 0 = some (0x01, 0, 0x202) ∧ alu (.ldReg 1 2) 0x10 0x33 = some (0x33, 0, 0x202) := by decide

/-- V42.4, V42.5, V42.6. -/
theorem test_logic : alu (.orReg 1 2) 0x0F 0xF0 = some (0xFF, 0, 0x202) ∧
    alu (.andReg 1 2) 0x3C 0x0F = some (0x0C, 0, 0x202) ∧ alu (.xorReg 1 2) 0xFF 0x0F = some (0xF0, 0, 0x202) := by decide

/-- V42.7, V42.9: a carry, and the largest sum without one (0xFF + 0x00). -/
theorem test_addReg : alu (.addReg 1 2) 0xFF 0x01 = some (0x00, 1, 0x202) ∧
    alu (.addReg 1 2) 0x7F 0x01 = some (0x80, 0, 0x202) ∧ alu (.addReg 1 2) 0xFF 0x00 = some (0xFF, 0, 0x202) := by decide

/-- V42.11, V42.12, V42.14: borrow, equality, no borrow. -/
theorem test_sub : alu (.sub 1 2) 0x01 0x02 = some (0xFF, 0, 0x202) ∧
    alu (.sub 1 2) 0x05 0x05 = some (0x00, 1, 0x202) ∧ alu (.sub 1 2) 0xFF 0x00 = some (0xFF, 1, 0x202) := by decide

/-- V42.17, V42.18, V42.19. -/
theorem test_subn : alu (.subn 1 2) 0x05 0x03 = some (0xFE, 0, 0x202) ∧
    alu (.subn 1 2) 0x03 0x05 = some (0x02, 1, 0x202) ∧ alu (.subn 1 2) 0x07 0x07 = some (0x00, 1, 0x202) := by decide

/-- V42.15, V42.16, V42.23: Y is ignored. -/
theorem test_shr : alu (.shr 1 2) 0x01 0 = some (0x00, 1, 0x202) ∧ alu (.shr 1 2) 0xFE 0 = some (0x7F, 0, 0x202) ∧
    alu (.shr 1 2) 0x05 0xC3 = some (0x02, 1, 0x202) := by decide

/-- V42.20, V42.21, V42.22. -/
theorem test_shl : alu (.shl 1 2) 0x80 0 = some (0x00, 1, 0x202) ∧ alu (.shl 1 2) 0x7F 0 = some (0xFE, 0, 0x202) ∧
    alu (.shl 1 2) 0xFF 0 = some (0xFE, 1, 0x202) := by decide

/-- V42.24 to V42.29: with X = F the flag is what stays; with Y = F the old VF is read. -/
theorem test_flag_last :
    after (exec (.addReg 0xF 1) (withRegs [(0xF, 0xC0), (1, 0x40)])) (·.reg 0xF) = some 1 ∧
    after (exec (.sub 0xF 1) (withRegs [(0xF, 0x05), (1, 0x07)])) (·.reg 0xF) = some 0 ∧
    after (exec (.shr 0xF 0) (withRegs [(0xF, 0x03)])) (·.reg 0xF) = some 1 ∧
    after (exec (.shl 0xF 0) (withRegs [(0xF, 0x81)])) (·.reg 0xF) = some 1 ∧
    after (exec (.subn 0xF 1) (withRegs [(0xF, 0x10), (1, 0x01)])) (·.reg 0xF) = some 0 ∧
    after (exec (.addReg 1 0xF) (withRegs [(1, 0xFF)])) (fun t => (t.reg 1, t.reg 0xF)) = some (0xFF, 0) := by decide

/-- The random byte of V42: with NN = 0x00 the result is 0x00 whatever the draw; with NN = 0xFF it is the draw. -/
theorem test_rnd : ((∃ t : State, exec (.rnd 3 0x00) State.reset = .next t ∧ t.reg 3 = 0) ∧
    ∃ t : State, exec (.rnd 3 0xFF) State.reset = .next t ∧ t.reg 3 = Config.randomByte 0) :=
  ⟨⟨_, rfl, BitVec.and_zero⟩, ⟨_, rfl, BitVec.and_allOnes⟩⟩

/-! ### Index register and memory transfer -/

/-- V43.1. -/
theorem test_ldI : after (exec (.ldI 0x300) State.reset) (fun t => (t.index, t.pc)) = some (0x300, 0x202) := by decide

/-- V43.2, V43.5, and the largest sum without overflow, 0xFFF. -/
theorem test_addI :
    after (exec (.addI 2) ((withRegs [(2, 0x10)]).setIndex 0xFF8)) (fun t => (t.index, t.reg 0xF)) = some (0x008, 1) ∧
    after (exec (.addI 0xF) ((withRegs [(0xF, 5)]).setIndex 0x123)) (fun t => (t.index, t.reg 0xF)) = some (0x128, 0) ∧
    after (exec (.addI 2) ((withRegs [(2, 1)]).setIndex 0xFFE)) (fun t => (t.index, t.reg 0xF)) = some (0xFFF, 0) := by
  decide

/-- V43.7, V43.8: the high nibble is ignored. -/
theorem test_ldF : after (exec (.ldF 0) (withRegs [(0, 0x1A)])) (·.index) = some 0x032 ∧
    after (exec (.ldF 0) (withRegs [(0, 0x0F)])) (·.index) = some 0x04B := by decide

/-- V43.9 (255) and V43.10: the digits, and the wrap past 0xFFF. -/
theorem test_ldB : after (exec (.ldB 0) ((withRegs [(0, 255)]).setIndex 0x300)) (·.readBytes 0x300 3) = some [2, 5, 5] ∧
    after (exec (.ldB 0) ((withRegs [(0, 123)]).setIndex 0xFFE)) (fun t => (t.readBytes 0xFFE 3, t.index)) =
      some ([1, 2, 3], 0xFFE) := by decide

/-- V43.12, V43.13: X = 0 stores one byte; the run wraps; I is kept. -/
theorem test_ldMemVx : after (exec (.ldMemVx 0) ((withRegs [(0, 0xAA), (1, 0xBB)]).setIndex 0x300))
      (·.readBytes 0x300 2) = some [0xAA, 0x00] ∧
    after (exec (.ldMemVx 1) ((withRegs [(0, 1), (1, 2)]).setIndex 0xFFF))
      (fun t => (t.readByte 0xFFF, t.readByte 0x000, t.index)) = some (1, 2, 0xFFF) := by decide

/-- V43.14: all sixteen registers, VF among them; I is kept. -/
theorem test_ldVxMem : after (exec (.ldVxMem 0xF) ((State.reset.writeBytes 0x300
      [0, 1, 2, 3, 4, 5, 6, 7, 8, 9, 10, 11, 12, 13, 14, 15]).setIndex 0x300))
      (fun t => (decide (∀ k : Reg, (t.reg k).toNat = k.val), t.index)) = some (true, 0x300) := by decide

/-! ### Display -/

/-- Row `y` of a frame, columns `x` to `x + 7`, as a byte with the leftmost column in bit 7. -/
def rowOf (s : State) (x y : Nat) : Nat :=
  (List.range 8).foldl (fun n k => 2 * n + if s.frameRead (x + k) y = .on then 1 else 0) 0

/-- The state of V44: V1 and V2 set, I set. -/
def drawing (x y : Byte) (i : Addr) : State := (withRegs [(1, x), (2, y)]).setIndex i

/-- V44.1 and V44.8: glyph A at the corner; a sprite read across 0xFFF. -/
theorem test_drw_draws : after (exec (.drw 1 2 5) (drawing 0 0 0x032))
      (fun t => ([0, 1, 2, 3, 4, 5].map (rowOf t 0), t.reg 0xF, t.frameUpdated, t.pc)) =
      some ([0xF0, 0x90, 0xF0, 0x90, 0x90, 0x00], 0, true, 0x202) ∧
    after (exec (.drw 1 2 3) (((drawing 0 0 0xFFE).writeByte 0xFFE 0x80).writeByte 0xFFF 0x80))
      (fun t => ([0, 1, 2].map (rowOf t 0), t.reg 0xF)) = some ([0x80, 0x80, 0xF0], 0) := by decide

/-- V44.3, V44.4, V44.6, V44.7: clipped at the right and at the bottom, off the grid, and N = 0. -/
theorem test_drw_clips :
    after (exec (.drw 1 2 5) (drawing 62 0 0x000)) (fun t => ((List.range 5).map (rowOf t 56), rowOf t 0 0, t.reg 0xF)) =
      some ([3, 2, 2, 2, 3], 0, 0) ∧
    after (exec (.drw 1 2 5) (drawing 0 30 0x000)) (fun t => (rowOf t 0 30, rowOf t 0 31, rowOf t 0 0)) =
      some (0xF0, 0x90, 0) ∧
    after (exec (.drw 1 2 5) (drawing 70 0 0x000)) (fun t => (rowOf t 0 0, rowOf t 6 0, t.reg 0xF)) = some (0, 0, 0) ∧
    after (exec (.drw 1 2 0) ((drawing 0 0 0).setReg 0xF 1)) (fun t => (rowOf t 0 0, t.reg 0xF)) = some (0, 0) := by
  decide

/-- V44.5 in one step: glyph 1 over a first row of glyph 0 collides at (2, 0). -/
theorem test_drw_collides :
    after (exec (.drw 1 2 1) ((drawing 0 0 0x005).setFrame (State.reset.frame.drawSprite [0xF0] 0 0).1))
      (fun t => (rowOf t 0 0, t.reg 0xF)) = some (0xD0, 1) := by decide

/-- V44.9: with Y = F the row is the old VF. -/
theorem test_drw_reads_old_vf : after (exec (.drw 1 0xF 1) ((drawing 0 0 0).setReg 0xF 5))
    (fun t => (rowOf t 0 5, rowOf t 0 0, t.reg 0xF)) = some (0xF0, 0, 0) := by decide

/-- V44.10: every cell OFF, VF unchanged, the frame is flagged. -/
theorem test_cls : after (exec .cls ((withRegs [(0xF, 1)]).setFrame (State.reset.frame.put 63 31 .on)))
    (fun t => (t.frameRead 63 31, t.reg 0xF, t.frameUpdated, t.pc)) = some (.off, 1, true, 0x202) := by decide

/-! ### Timers -/

/-- V45.1. -/
theorem test_ldVxDt : after (exec (.ldVxDt 3) (State.reset.setCount .delay 0x3C)) (fun t => (t.reg 3, t.dt)) =
    some (0x3C, 0x3C) := by decide

/-- V45.2, V45.3: a positive write, and a write of 0 to a running timer. -/
theorem test_ldDtVx : after (exec (.ldDtVx 0) (withRegs [(0, 5)])) (fun t => (t.dt, t.trace)) = some (5, []) ∧
    after (exec (.ldDtVx 0) (State.reset.setCount .delay 3)) (·.dt) = some 3 := by decide

/-- V45.5 (first step), V45.6, V45.7: start, re-arm, zero. -/
theorem test_ldStVx : after (exec (.ldStVx 1) (withRegs [(1, 2)])) (fun t => (t.st, t.trace)) = some (2, [.start]) ∧
    after (exec (.ldStVx 1) ((withRegs [(1, 9)]).setCount .sound 4)) (fun t => (t.st, t.trace)) = some (9, []) ∧
    after (exec (.ldStVx 1) (State.reset.setCount .sound 4)) (fun t => (t.st, t.trace)) = some (4, []) := by decide

/-- V45.5, V45.9, V45.10: the last sound tick, a tick at 0, and the independence of the timers. -/
theorem test_ticks : after (applyEvent .soundTick (State.reset.setCount .sound 1)) (fun t => (t.st, t.trace)) =
      some (0, [.stop]) ∧
    after (applyEvent .delayTick State.reset) (·.dt) = some 0 ∧
    after (applyEvent .delayTick ((State.reset.setCount .delay 2).setCount .sound 2)) (fun t => (t.dt, t.st)) =
      some (1, 2) := by decide

/-! ### Keypad -/

/-- V46.1, V46.2, V46.3, and key 0xF: DOWN, UP, and a code above 0xF. -/
theorem test_skp : after (exec (.skp 5) ((withRegs [(5, 7)]).setKey 7 .down)) (·.pc) = some 0x204 ∧
    after (exec (.skp 5) (withRegs [(5, 7)])) (·.pc) = some 0x202 ∧
    after (exec (.skp 5) ((withRegs [(5, 0x17)]).setKey 7 .down)) (·.pc) = some 0x202 ∧
    after (exec (.skp 5) ((withRegs [(5, 0xF)]).setKey 0xF .down)) (·.pc) = some 0x204 := by decide

/-- V46.2, V46.3. -/
theorem test_sknp : after (exec (.sknp 5) (withRegs [(5, 7)])) (·.pc) = some 0x204 ∧
    after (exec (.sknp 5) ((withRegs [(5, 7)]).setKey 7 .down)) (·.pc) = some 0x202 ∧
    after (exec (.sknp 5) ((withRegs [(5, 0x10)]).setKey 0 .down)) (·.pc) = some 0x204 := by decide

/-- V46.4. -/
theorem test_ldVxK : after (exec (.ldVxK 2) (State.reset.setKey 3 .down))
    (fun t => (t.key 3, t.mode, t.waitReg, t.pc)) = some (.up, .blockedForInput, 2, 0x200) := by decide

/-- A core that waits for V`x` at 0x200. -/
def waiting (x : Reg) : State := ((holding (0xF00A + 256 * x.val)).setMode .blockedForInput).setWaitReg x

/-- V46.6 (the completing step), V46.9: the lowest of two keys, left DOWN; X = F. -/
theorem test_ldVxK_completes : after (cpuStep (((waiting 2).setKey 9 .down).setKey 4 .down))
      (fun t => (t.reg 2, t.mode, t.pc, t.key 4, t.key 9)) = some (4, .running, 0x202, .down, .down) ∧
    after (cpuStep (((waiting 0xF).setReg 0xF 0x33).setKey 0 .down)) (fun t => (t.reg 0xF, t.pc)) =
      some (0, 0x202) := by decide

/-! ### The cycle -/

/-- V40.2: the step fetches, decodes and runs; the advance wraps. -/
theorem test_step_runs : after (step ((State.reset.setPc 0xFFE).withFetchWord 16 0x6005)) (fun t => (t.reg 0, t.pc)) =
    some (5, 0x000) := by decide

/-- V40.1, V70.4: an unknown word is reported and passed over. -/
theorem test_step_unknown : after (step (holding 0x8008)) (fun t => (t.trace, t.pc)) = some ([.diag 0x8008], 0x202) ∧
    after (step (State.reset.setSchedule [.step])) (fun t => (t.trace, t.pc)) = some ([.diag 0x0000], 0x202) := by decide

/-- V40.4: an odd pc is fetched as it is. -/
theorem test_step_odd_pc : after (step ((State.reset.setPc 0x201).withFetchWord 16 0x1300)) (·.pc) = some 0x300 := by
  decide

/-- V40.5, V46.5: a blocked step with every key UP changes nothing. -/
theorem test_step_blocked : step (waiting 2) = .next (waiting 2) := rfl

/-- 60_exceptions.md R142, R143: a scheduled Press is applied alone, and the next event is the one after it. -/
theorem test_step_event : after (step (State.reset.setSchedule [.press 9, .step])) (fun t => (t.key 9, t.schedule, t.pc)) =
    some (.down, [.step], 0x200) := by decide

/-- 60_exceptions.md R142, 40_cycle.md R85: from reset the host may send any event, and any event again after it. -/
theorem test_step_free : step State.reset = applyEvent (Config.hostEvent 0) State.reset.countInput ∧
    step State.reset.countInput = applyEvent (Config.hostEvent 1) State.reset.countInput.countInput := ⟨rfl, rfl⟩

/-! ### Witnesses: the hypotheses of the statements can be met -/

/-- DecodedWordIsTheEncoding, DecodingFollowsTheOpcodeMap: a word that decodes, its row, and a row it does not select. -/
theorem test_witness_decoded : decode 0xD125 = .ok (.drw 1 2 5) ∧ (⟨"DRW", 0xD000, 0xF000⟩ : OpcodeRow) ∈ opcodeTable ∧
    (⟨"SKP", 0xE09E, 0xF0FF⟩ : OpcodeRow) ∈ opcodeTable ∧ wordKnown 0xD125 = true ∧ wordKnown 0xFABC = false :=
  ⟨rfl, by decide, by decide, by decide, by decide⟩

/-- UnknownWordsAreRejectedByClass: the number conditions of each class at its first or last word. -/
theorem test_witness_unknown_classes : (0x0FFF / 4096 = 0x0 ∧ 0x0FFF ≠ 0x00E0 ∧ 0x0FFF ≠ 0x00EE) ∧
    (0x5001 / 4096 = 0x5 ∧ 0x5001 % 16 ≠ 0) ∧
    (0x8FFF / 4096 = 0x8 ∧ 0x8FFF % 16 ∈ [8, 9, 0xA, 0xB, 0xC, 0xD, 0xF]) ∧ (0x900F / 4096 = 0x9 ∧ 0x900F % 16 ≠ 0) ∧
    (0xE09F / 4096 = 0xE ∧ 0xE09F % 256 ∉ [0x9E, 0xA1]) ∧
    (0xFFFF / 4096 = 0xF ∧ 0xFFFF % 256 ∉ [0x07, 0x0A, 0x15, 0x18, 0x1E, 0x29, 0x33, 0x55, 0x65]) := by decide

/-- RetPopsOrStays: the empty stack and a stack of one. -/
theorem test_witness_ret : State.reset.stack = [] ∧ (State.reset.setStack [0x206]).stack = 0x206 :: [] := by decide

/-- ImmediateSkips, RegisterSkips: both conditions, at 0x00 and 0xFF. -/
theorem test_witness_skips : (withRegs [(0xF, 0xFF)]).reg 0xF = 0xFF ∧ (withRegs [(0xF, 0xFF)]).reg 0xF ≠ 0x00 ∧
    State.reset.reg 0 = State.reset.reg 1 ∧ (withRegs [(0, 1)]).reg 0 ≠ (withRegs [(0, 1)]).reg 1 := by decide

/-- AddRegCarries, SubtractionsBorrow, ShiftsDropOneBit: a destination other than VF; sums 255 and 256; minuends below
and at the subtrahend; RndMasksTheDraw: a bit that NN clears. -/
theorem test_witness_alu : (0xE : Reg) ≠ Reg.VF ∧
    ((withRegs [(1, 0xFF)]).reg 1).toNat + ((withRegs [(1, 0xFF)]).reg 2).toNat = 255 ∧
    ((withRegs [(1, 0xFF), (2, 1)]).reg 1).toNat + ((withRegs [(1, 0xFF), (2, 1)]).reg 2).toNat = 256 ∧
    ¬ ((withRegs [(2, 1)]).reg 1).toNat ≥ ((withRegs [(2, 1)]).reg 2).toNat ∧
    (State.reset.reg 1).toNat ≥ (State.reset.reg 2).toNat ∧ (0x7F : Byte).getLsbD 7 = false := by decide

/-- AddIOverflows: the sums 0xFFF and 0x1000. -/
theorem test_witness_addI : (State.reset.setIndex 0xFFF).index.toNat + (State.reset.reg 0).toNat = 0xFFF ∧
    ((withRegs [(0, 1)]).setIndex 0xFFF).index.toNat + ((withRegs [(0, 1)]).reg 0).toNat = 0x1000 := by decide

/-- LdMemVxStoresRegisters, LdVxMemLoadsRegisters: registers up to VX, above it, and X = F. -/
theorem test_witness_runs : (0 : Reg) ≤ 0 ∧ (0 : Reg) < 1 ∧ (0xF : Reg) ≤ 0xF := by decide

/-- BytesKept in ByteReadAfterWrite, WordReadAfterWrite, LdBStoresDigits, LdMemVxStoresRegisters and
ConstructionLoadsTheProgram: an address outside a run that wraps past 0xFFF. -/
theorem test_witness_bytes_kept : ∀ k : Nat, k < 3 → 0x001 % 4096 ≠ (0xFFE + k) % 4096 := by decide

/-- NextFetchSeesTheStore: the last step of program P8 of 95_test_vectors.md. -/
theorem test_witness_store_fetch :
    ∃ t : State, exec (.ldMemVx 1) (((withRegs [(0, 0x12), (1, 0x08)]).setIndex 0x208).setPc 0x206) = .next t ∧
      (0 : Reg).val + 1 ≤ (1 : Reg).val ∧ t.pc.toNat = ((0x208 : Addr).toNat + (0 : Reg).val) % 4096 ∧
      t.fetch = 0x1208 := ⟨_, rfl, by decide, by decide, by decide⟩

/-- ToggleFlipsOneCell, ToggleTwiceRestores: the last cell of the grid OFF and ON, and the first cells outside it. -/
theorem test_witness_toggle : (63 < 64 ∧ 31 < 32) ∧ State.reset.frame.get 63 31 = .off ∧
    (State.reset.frame.put 63 31 .on).get 63 31 = .on ∧ (64 ≤ 64 ∨ 32 ≤ 0) ∧ (64 ≤ 0 ∨ 32 ≤ 32) := by decide

/-- DrawSpriteFlipsItsBits, DrawTwiceRestores, DrwDrawsAndCollides: a set bit at the last cell of the grid over an OFF
and over an ON cell, a clear bit, and a set bit outside the grid. -/
theorem test_witness_sprite : 0 < ([0x80] : List Byte).length ∧ ([0x80].getD 0 0 : Byte).getLsbD (7 - 0) = true ∧
    63 + 0 < 64 ∧ 31 + 0 < 32 ∧ State.reset.frame.get (63 + 0) (31 + 0) = .off ∧
    (State.reset.frame.put 63 31 .on).get (63 + 0) (31 + 0) = .on ∧
    ([0x80].getD 0 0 : Byte).getLsbD (7 - 1) = false ∧ ¬ 64 + 0 < 64 := by decide

/-- DrawSpriteFlipsItsBits: a cell that no set bit of a sprite names. -/
theorem test_witness_sprite_outside : ∀ line : Nat, line < ([0x80] : List Byte).length → ∀ col : Nat, col < 8 →
    ([0x80].getD line 0 : Byte).getLsbD (7 - col) = true → ¬ (1 = 0 + col ∧ 0 = 0 + line) := by decide

/-- LdDtVxArmsTheDelay, LdStVxArmsTheSound, TicksCountDown: VX zero and positive, ST zero, one and positive. -/
theorem test_witness_timers : State.reset.reg 0 = 0 ∧ (withRegs [(0, 1)]).reg 0 ≠ 0 ∧ State.reset.st = 0 ∧
    (State.reset.setCount .sound 1).st.toNat = 1 ∧ (State.reset.setCount .sound 0xFF).st ≠ 0 := by decide

/-- KeySkips: a DOWN key named by VX, and a VX above 0xF that no key has. -/
theorem test_witness_keys : (∃ k : KeyCode, k.val = ((withRegs [(5, 0xF)]).reg 5).toNat ∧
      ((withRegs [(5, 0xF)]).setKey 0xF .down).key k = .down) ∧
    ¬ ∃ k : KeyCode, k.val = ((withRegs [(5, 0x10)]).reg 5).toNat ∧
      ((withRegs [(5, 0x10)]).setKey 0 .down).key k = .down := by decide

/-- BlockedStepCapturesAKey, FixedPointsOfTheStep: blocked with every key UP, and with a lowest DOWN key. -/
theorem test_witness_blocked : (waiting 2).mode = .blockedForInput ∧ (∀ k : KeyCode, (waiting 2).key k = .up) ∧
    (((waiting 2).setKey 0xF .down).key 0xF = .down ∧
      ∀ j : KeyCode, ((waiting 2).setKey 0xF .down).key j = .down → 0xF ≤ j) := by decide

/-- StepRunsTheDecodedInstruction: RUNNING at a word that decodes, with a host that only steps and with a Step scheduled
before other events. -/
theorem test_witness_step_runs : (holding 0x6A42).mode = .running ∧ decode (holding 0x6A42).fetch = .ok (.ldImm 0xA 0x42) ∧
    StepsNext (holding 0x6A42) ∧ StepsNext ((holding 0x6A42).setSchedule [.step, .ack]) := ⟨rfl, rfl, rfl, rfl⟩

/-- StepAppliesTheNextEvent: a schedule that begins with an event, and its two ends. -/
theorem test_witness_event : (State.reset.setSchedule [.press 3]).schedule = .press 3 :: [] ∧
    (holding 0x6A42).schedule = [] ∧ (holding 0x6A42).scheduleEnd = .stepsOnly ∧
    State.reset.schedule = [] ∧ State.reset.scheduleEnd = .anyEvent := by decide

/-- UnknownWordIsReported: RUNNING at an unknown word. -/
theorem test_witness_unknown : (holding 0x5121).mode = .running ∧ decode (holding 0x5121).fetch = .error .unknown5XYn :=
  ⟨rfl, rfl⟩

/-- FixedPointsOfTheStep: a jump to itself, and 00EE with an empty stack. -/
theorem test_witness_fixed_points : decode (holding 0x1200).fetch = .ok (.jp (holding 0x1200).pc) ∧
    decode (holding 0x00EE).fetch = .ok .ret ∧ (holding 0x00EE).stack = [] := ⟨rfl, rfl, rfl⟩

/-- ExecWritesOnlyItsOwn, InstructionsIgnoreUnreadState: instructions that answer a next state, one of them a store, one
of them no FX18, and one an FX18 run from two states whose ST are 0 and not 0, and both not 0. -/
theorem test_witness_exec : (∃ t : State, exec (.ldStVx 1) (withRegs [(1, 2)]) = .next t) ∧
    (∃ t : State, exec (.ldMemVx 0xF) (State.reset.setIndex 0xFFF) = .next t) ∧
    (∀ x : Reg, Instr.ldMemVx 0xF ≠ .ldStVx x) ∧ ¬ ((withRegs [(1, 2)]).st = 0 ↔ (1 : Byte) = 0) ∧
    (((withRegs [(1, 2)]).setCount .sound 4).st = 0 ↔ (1 : Byte) = 0) := ⟨⟨_, rfl⟩, ⟨_, rfl⟩, by decide, by decide, by decide⟩

/-- OnlyAwaitKeyChangesTheMode: a step into BLOCKED_FOR_INPUT and a step out of it. -/
theorem test_witness_mode : (holding 0xF20A).mode = .running ∧
    after (step (holding 0xF20A)) (·.mode) = some .blockedForInput ∧
    ((waiting 2).setKey 4 .down).mode = .blockedForInput ∧
    after (step ((waiting 2).setKey 4 .down)) (·.mode) = some .running := by decide

/-- OnlyCallAndReturnMoveTheStack: a step that pushes and a step that pops. -/
theorem test_witness_stack : after (step (holding 0x2210)) (fun t => decide (t.stack ≠ (holding 0x2210).stack)) =
      some true ∧
    after (step ((holding 0x00EE).setStack [0x206])) (fun t => decide (t.stack ≠ [0x206])) = some true := by decide

/-- OnlyStoresChangeMemory: a step of FX33 and one of FX55 that change a byte. -/
theorem test_witness_stores :
    after (step (((holding 0xF033).setReg 0 9).setIndex 0x300)) (·.readByte 0x302) = some 9 ∧
    after (step (((holding 0xF055).setReg 0 9).setIndex 0x300)) (·.readByte 0x300) = some 9 ∧
    (holding 0xF033).readByte 0x302 = 0 ∧ (holding 0xF055).readByte 0x300 = 0 := by decide

/-- DelayRisesOnlyByAWrite: a step that raises DT. -/
theorem test_witness_delay : (holding 0xF015).dt = 0 ∧ after (step ((holding 0xF015).setReg 0 5)) (·.dt) = some 5 := by
  decide

/-- StepKeepsMemoryCanonical: a canonical memory that lists bytes, and a step that changes it. -/
theorem test_witness_memory_invariant : Memory.wf (((holding 0xF055).setReg 0 9).setIndex 0x300).mem ∧
    after (step (((holding 0xF055).setReg 0 9).setIndex 0x300)) (·.mem) =
      some [(0x200, 0xF0), (0x201, 0x55), (0x300, 9)] := by decide

/-- A core whose tone is on, with the `start()` that turned it on. -/
def sounding : State := (State.reset.setCount .sound 1).emit .start

/-- StepKeepsTheAudioProtocol: a sounding core, and the step that stops the tone; a core out of step is no witness. -/
theorem test_witness_audio_invariant : toneAfter sounding.trace = some sounding.audible ∧
    after (step (sounding.setSchedule [.soundTick])) (fun t => (t.trace, t.audible)) =
      some ([.stop, .start], false) ∧ toneAfter [.start, .start] = none ∧ toneAfter [.stop] = none := by decide

/-- StepKeepsTheAwaitKeyAtThePc: a blocked core at its FX0A, and the step that enters the wait. -/
theorem test_witness_await_invariant : WaitsAtAwaitKey (waiting 2) ∧ (waiting 2).mode = .blockedForInput ∧
    ∃ t : State, step (holding 0xF20A) = .next t ∧ t.mode = .blockedForInput := ⟨fun _ => rfl, rfl, _, rfl, rfl⟩

/-- StepKeepsStackAddresses: a stack with the greatest address, and a step that pushes on it. -/
theorem test_witness_stack_invariant : StackHoldsAddresses ((holding 0x2210).setStack [0xFFF]) ∧
    after (step ((holding 0x2210).setStack [0xFFF])) (·.stack) = some [0x202, 0xFFF] :=
  ⟨List.forall_mem_singleton.mpr (by decide), by decide⟩

/-- ResetMeetsTheInvariants: construction with a program gives a core, whose memory lists the program's bytes. -/
theorem test_witness_construct_core : ∃ s : State, construct (some [0x12, 0x28]) = .next s ∧
    s.mem = [(0x200, 0x12), (0x201, 0x28)] := ⟨_, rfl, by decide⟩

/-- ConstructionLoadsTheProgram: the empty program, the longest that fits and the shortest that does not (V70.2 to
V70.4). -/
theorem test_witness_construct : ([] : List Byte).length ≤ 3584 ∧ (List.replicate 3584 (0 : Byte)).length ≤ 3584 ∧
    3584 < (List.replicate 3585 (0 : Byte)).length :=
  ⟨Nat.zero_le _, le_of_eq List.length_replicate, lt_of_lt_of_eq (Nat.lt_succ_self 3584) List.length_replicate.symm⟩

end Sys2Proof.Machine
end

/-! PROOF. What every operation, every instruction and every step leaves unchanged, part by part (10_state.md R20, R24
to R26, R35, R36), what an instruction reads (R28, R33, R34), and the obligations of 10_state.md, which follow. -/

namespace Sys2Proof.Machine

/-! ### The parts of the state -/

theorem SamePart.refl (s : State) (p : Part) : SamePart s s p := by
  cases p <;> simp only [SamePart, implies_true]

theorem SamePart.symm {s t : State} {p : Part} (h : SamePart s t p) : SamePart t s p := by
  cases p <;> simp_all only [SamePart, implies_true]

theorem SamePart.trans {s t u : State} {p : Part} (h : SamePart s t p) (h' : SamePart t u p) : SamePart s u p := by
  cases p <;> simp_all only [SamePart, implies_true]

/-- The fetched word depends on the pc and the bytes of memory alone (40_cycle.md R77). -/
theorem State.fetch_congr {s t : State} (hpc : SamePart s t .pc) (hmem : SamePart s t .mem) : t.fetch = s.fetch := by
  simp only [SamePart] at hpc hmem
  simp only [State.fetch, State.readWord, hpc, hmem]

theorem OnlyChanges.refl (ps : List Part) (s : State) : OnlyChanges ps s s := fun p _ => SamePart.refl s p

theorem OnlyChanges.mono {ps qs : List Part} {s t : State} (h : OnlyChanges ps s t) (hsub : ps ⊆ qs) :
    OnlyChanges qs s t := fun p hp => h p fun hm => hp (hsub hm)

theorem OnlyChanges.trans {ps qs : List Part} {s t u : State} (h : OnlyChanges ps s t) (h' : OnlyChanges qs t u) :
    OnlyChanges (ps ++ qs) s u := fun p hp =>
  (h p fun hm => hp (List.mem_append_left _ hm)).trans (h' p fun hm => hp (List.mem_append_right _ hm))

/-! ### What each operation writes -/

theorem State.setReg_onlyChanges (s : State) (r : Reg) (b : Byte) : OnlyChanges [.regs] s (s.setReg r b) := by
  intro p hp; cases p <;> simp_all [SamePart]

theorem State.setFlag_onlyChanges (s : State) (c : Bool) : OnlyChanges [.regs] s (s.setFlag c) :=
  s.setReg_onlyChanges _ _

theorem State.setPc_onlyChanges (s : State) (a : Addr) : OnlyChanges [.pc] s (s.setPc a) := by
  intro p hp; cases p <;> simp_all [SamePart]

theorem State.setIndex_onlyChanges (s : State) (a : Addr) : OnlyChanges [.index] s (s.setIndex a) := by
  intro p hp; cases p <;> simp_all [SamePart]

theorem State.writeBytes_onlyChanges (s : State) (a : Nat) (bs : List Byte) :
    OnlyChanges [.mem] s (s.writeBytes a bs) := by
  intro p hp; cases p <;> simp_all [SamePart]

theorem State.loadRegs_onlyChanges (s : State) (ks : List Reg) : OnlyChanges [.regs] s (s.loadRegs ks) := by
  intro p hp; cases p <;> simp_all [SamePart]

theorem State.setStack_onlyChanges (s : State) (ws : List Word) : OnlyChanges [.stack] s (s.setStack ws) := by
  intro p hp; cases p <;> simp_all [SamePart]

theorem State.emit_onlyChanges (s : State) (o : Output) : OnlyChanges [.trace] s (s.emit o) := by
  intro p hp; cases p <;> simp_all [SamePart]

theorem State.emitEdge_onlyChanges (s : State) (t : Timer) (o : Output) :
    OnlyChanges [.trace] s (s.emitEdge t o) := by
  cases t
  · exact OnlyChanges.refl _ s
  · exact s.emit_onlyChanges o

theorem State.countDraw_onlyChanges (s : State) : OnlyChanges [.draws] s s.countDraw := by
  intro p hp; cases p <;> simp_all [SamePart]

theorem State.setKey_onlyChanges (s : State) (k : KeyCode) (c : KeyState) : OnlyChanges [.keys] s (s.setKey k c) := by
  intro p hp; cases p <;> simp_all [SamePart]

theorem State.clearKeys_onlyChanges (s : State) : OnlyChanges [.keys] s s.clearKeys := by
  intro p hp; cases p <;> simp_all [SamePart]

theorem State.setMode_onlyChanges (s : State) (m : Mode) : OnlyChanges [.mode] s (s.setMode m) := by
  intro p hp; cases p <;> simp_all [SamePart]

theorem State.setWaitReg_onlyChanges (s : State) (r : Reg) : OnlyChanges [.waitReg] s (s.setWaitReg r) := by
  intro p hp; cases p <;> simp_all [SamePart]

theorem State.setFrameUpdated_onlyChanges (s : State) (b : Bool) :
    OnlyChanges [.frameUpdated] s (s.setFrameUpdated b) := by
  intro p hp; cases p <;> simp_all [SamePart]

theorem State.setFrame_onlyChanges (s : State) (f : Frame) : OnlyChanges [.frame] s (s.setFrame f) := by
  intro p hp; cases p <;> simp_all [SamePart]

theorem State.setTimer_delay_onlyChanges (s : State) (n : Byte) : OnlyChanges [.dt] s (s.setTimer .delay n) := by
  intro p hp; cases p <;> simp_all [SamePart]

theorem State.setTimer_sound_onlyChanges (s : State) (n : Byte) :
    OnlyChanges [.st, .trace] s (s.setTimer .sound n) := by
  intro p hp; cases p <;> simp_all [SamePart]

theorem State.setCount_sound_onlyChanges (s : State) (n : Byte) : OnlyChanges [.st] s (s.setCount .sound n) := by
  intro p hp; cases p <;> simp_all [SamePart]

theorem State.tick_onlyChanges (s : State) (t : Timer) : OnlyChanges [.dt, .st, .trace] s (s.tick t) := by
  intro p hp; cases p <;> simp_all [SamePart]

theorem State.takeInput_onlyChanges (s : State) : OnlyChanges [.schedule, .inputs] s s.takeInput := by
  intro p hp; cases p <;> simp_all [SamePart]

/-- A state change followed by a write of the pc, the advance among them. -/
theorem OnlyChanges.setPc {ps : List Part} {s t : State} (h : OnlyChanges ps s t) (a : Addr) :
    OnlyChanges (.pc :: ps) s (t.setPc a) :=
  (h.trans (t.setPc_onlyChanges a)).mono (by simp)

theorem State.loadAndAdvance_onlyChanges (s : State) (x : Reg) (b : Byte) :
    OnlyChanges [.pc, .regs] s (s.loadAndAdvance x b) :=
  (s.setReg_onlyChanges x b).setPc _

theorem State.resultAndFlag_onlyChanges (s : State) (x : Reg) (b : Byte) (c : Bool) :
    OnlyChanges [.pc, .regs] s (s.resultAndFlag x b c) :=
  (((s.setReg_onlyChanges x b).trans (State.setFlag_onlyChanges _ c)).mono (by simp)).setPc _

theorem execUnknown_onlyChanges (w : Word) (s : State) : OnlyChanges [.pc, .trace] s (execUnknown w s) :=
  (s.emit_onlyChanges _).setPc _

/-! ### What each instruction writes -/

theorem execRet_nil {s : State} (hs : s.stack = []) : execRet s = .next s := by
  simp only [execRet, s.pop_nil hs]

theorem execRet_cons {s : State} {w : Word} {ws : List Word} (hs : s.stack = w :: ws) :
    execRet s = .next ((s.setStack ws).setPc (w.setWidth 12)) := by
  simp only [execRet, s.pop_cons w ws hs]

theorem execRet_onlyChanges {s t : State} (h : execRet s = .next t) : OnlyChanges [.pc, .stack] s t := by
  cases hs : s.stack with
  | nil =>
    cases (execRet_nil hs).symm.trans h
    exact OnlyChanges.refl _ _
  | cons w ws =>
    cases (execRet_cons hs).symm.trans h
    exact (s.setStack_onlyChanges ws).setPc _

/-- Every instruction writes only its own parts (10_state.md R20, R24, R25, R26). -/
theorem exec_onlyChanges {i : Instr} {s t : State} (h : exec i s = .next t) : OnlyChanges (writtenParts i) s t := by
  cases i with
  | ret => exact execRet_onlyChanges h
  | cls => cases h; exact ((s.setFrame_onlyChanges _).trans (State.setFrameUpdated_onlyChanges _ _)).setPc _
  | jp | seImm | sneImm | seReg | sneReg | jpV0 | skp | sknp => cases h; exact s.setPc_onlyChanges _
  | call => cases h; exact (s.setStack_onlyChanges _).setPc _
  | ldImm | addImm | ldReg | orReg | andReg | xorReg | ldVxDt => cases h; exact s.loadAndAdvance_onlyChanges _ _
  | addReg | sub | shr | subn | shl => cases h; exact s.resultAndFlag_onlyChanges _ _ _
  | rnd =>
    cases h
    exact (s.countDraw_onlyChanges.trans (State.loadAndAdvance_onlyChanges _ _ _)).mono (by simp [writtenParts])
  | drw =>
    cases h
    exact ((((s.setFrame_onlyChanges _).trans (State.setFlag_onlyChanges _ _)).trans
      (State.setFrameUpdated_onlyChanges _ _)).setPc _).mono (by simp [writtenParts])
  | ldI | ldF => cases h; exact (s.setIndex_onlyChanges _).setPc _
  | addI => cases h; exact ((s.setIndex_onlyChanges _).trans (State.setFlag_onlyChanges _ _)).setPc _
  | ldVxK =>
    cases h
    exact (s.clearKeys_onlyChanges.trans (State.setWaitReg_onlyChanges _ _)).trans (State.setMode_onlyChanges _ _)
  | ldDtVx => cases h; exact (s.setTimer_delay_onlyChanges _).setPc _
  | ldStVx => cases h; exact (s.setTimer_sound_onlyChanges _).setPc _
  | ldB | ldMemVx => cases h; exact (s.writeBytes_onlyChanges _ _).setPc _
  | ldVxMem => cases h; exact (s.loadRegs_onlyChanges _).setPc _

theorem State.loadAndAdvance_regsKept (s : State) (x : Reg) (b : Byte) : RegsKept [x] s (s.loadAndAdvance x b) := by
  intro r hr
  simp_all [State.loadAndAdvance]

theorem State.resultAndFlag_regsKept (s : State) (x : Reg) (b : Byte) (c : Bool) :
    RegsKept [x, Reg.VF] s (s.resultAndFlag x b c) := by
  intro r hr
  simp_all [State.resultAndFlag]

/-- Every instruction writes only its own registers (10_state.md R20, R35). -/
theorem exec_regsKept {i : Instr} {s t : State} (h : exec i s = .next t) : RegsKept (writtenRegs i) s t := by
  cases i with
  | ldImm | addImm | ldReg | orReg | andReg | xorReg | ldVxDt => cases h; exact s.loadAndAdvance_regsKept _ _
  | addReg | sub | shr | subn | shl => cases h; exact s.resultAndFlag_regsKept _ _ _
  | rnd => cases h; exact s.countDraw.loadAndAdvance_regsKept _ _
  | drw | addI => cases h; intro r hr; simp_all [writtenRegs]
  | ldVxMem => cases h; intro r hr; simp_all [writtenRegs, State.loadRegs_reg]
  | _ => exact fun r _ => exec_onlyChanges h .regs (by simp [writtenParts]) r

/-- Every instruction writes only its own bytes of memory (20_memory.md R47). -/
theorem exec_bytesKept {i : Instr} {s t : State} (h : exec i s = .next t) :
    BytesKept s.index.toNat (storedBytes i) s t := by
  cases i with
  | ldB =>
    cases h
    exact fun c hc => State.readByte_writeBytes_other s _ _ c (by simpa [storedBytes, bcdDigits] using hc)
  | ldMemVx =>
    cases h
    exact fun c hc => State.readByte_writeBytes_other s _ _ c (by simpa [storedBytes, length_regsUpTo] using hc)
  | _ => exact fun c _ => exec_onlyChanges h .mem (by simp [writtenParts]) c

/-- Settles O47: the parts, the registers and the bytes, each by the lemma over the 34 instructions. -/
theorem execWritesOnlyItsOwn : Obligations.ExecWritesOnlyItsOwn :=
  fun _ _ _ h => ⟨exec_onlyChanges h, exec_regsKept h, exec_bytesKept h⟩

/-! ### An operation applied to two states keeps the parts they share -/

section SharedParts

variable {s u : State} {p : Part}

theorem SamePart.setReg (h : SamePart s u p) (r : Reg) (b : Byte) : SamePart (s.setReg r b) (u.setReg r b) p := by
  cases p <;> simp_all [SamePart]

theorem SamePart.setPc (h : SamePart s u p) (a : Addr) : SamePart (s.setPc a) (u.setPc a) p := by
  cases p <;> simp_all [SamePart]

theorem SamePart.setIndex (h : SamePart s u p) (a : Addr) : SamePart (s.setIndex a) (u.setIndex a) p := by
  cases p <;> simp_all [SamePart]

theorem SamePart.writeByte (h : SamePart s u p) (a : Nat) (b : Byte) :
    SamePart (s.writeByte a b) (u.writeByte a b) p := by
  cases p <;> simp_all [SamePart, State.readByte_writeByte]

theorem SamePart.setStack (h : SamePart s u p) (ws : List Word) : SamePart (s.setStack ws) (u.setStack ws) p := by
  cases p <;> simp_all [SamePart]

theorem SamePart.countDraw (h : SamePart s u p) : SamePart s.countDraw u.countDraw p := by
  cases p <;> simp_all [SamePart]

theorem SamePart.clearKeys (h : SamePart s u p) : SamePart s.clearKeys u.clearKeys p := by
  cases p <;> simp_all [SamePart]

theorem SamePart.setMode (h : SamePart s u p) (m : Mode) : SamePart (s.setMode m) (u.setMode m) p := by
  cases p <;> simp_all [SamePart]

theorem SamePart.setWaitReg (h : SamePart s u p) (r : Reg) : SamePart (s.setWaitReg r) (u.setWaitReg r) p := by
  cases p <;> simp_all [SamePart]

theorem SamePart.setFrameUpdated (h : SamePart s u p) (b : Bool) :
    SamePart (s.setFrameUpdated b) (u.setFrameUpdated b) p := by
  cases p <;> simp_all [SamePart]

theorem SamePart.setFrame (h : SamePart s u p) (f : Frame) : SamePart (s.setFrame f) (u.setFrame f) p := by
  cases p <;> simp_all [SamePart]

theorem SamePart.setCount (h : SamePart s u p) (t : Timer) (n : Byte) :
    SamePart (s.setCount t n) (u.setCount t n) p := by
  cases t <;> cases p <;> simp_all [SamePart]

theorem SamePart.emitEdge (h : SamePart s u p) (t : Timer) (o : Output) :
    SamePart (s.emitEdge t o) (u.emitEdge t o) p := by
  cases t
  · exact h
  · cases p <;> simp_all [SamePart, State.emitEdge]

theorem SamePart.setTimer (h : SamePart s u p) {t : Timer}
    (hc : p = .trace → (u.count t = 0 ↔ s.count t = 0)) {m n : Byte} (hn : m = n) :
    SamePart (s.setTimer t n) (u.setTimer t m) p := by
  subst hn
  by_cases hm : m = 0
  · simpa only [hm, State.setTimer_zero] using h
  by_cases hp : p = .trace
  · simp only [State.setTimer_pos _ t m hm, hc hp]
    split
    · exact (h.setCount t m).emitEdge t _
    · exact h.setCount t m
  · have edge : ∀ r : State, SamePart (r.setCount t m) (r.setTimer t m) p := by
      intro r
      rw [r.setTimer_pos t m hm]
      split
      · exact State.emitEdge_onlyChanges _ t _ p (by simp [hp])
      · exact SamePart.refl _ p
    exact (edge s).symm.trans ((h.setCount t m).trans (edge u))

theorem SamePart.writeBytes (h : SamePart s u p) (a : Nat) (bs : List Byte) :
    SamePart (s.writeBytes a bs) (u.writeBytes a bs) p := by
  induction bs generalizing s u a with
  | nil => exact h
  | cons b bs ih => exact ih (h.writeByte a b) (a + 1)

theorem SamePart.loadRegs (h : SamePart s u p) (hi : u.index = s.index) (hm : SamePart s u .mem) (ks : List Reg) :
    SamePart (s.loadRegs ks) (u.loadRegs ks) p := by
  induction ks generalizing s u with
  | nil => exact h
  | cons k ks ih =>
    have hb : u.readByte (u.index.toNat + k.val) = s.readByte (s.index.toNat + k.val) := by rw [hi, hm]
    simp only [State.loadRegs, hb]
    exact ih (h.setReg k _) hi (hm.setReg k _)

theorem SamePart.advance (h : SamePart s u p) (hpc : u.pc = s.pc) : SamePart s.advance u.advance p := by
  simpa only [State.advance, hpc] using h.setPc (s.pc + 2)

theorem SamePart.skip (h : SamePart s u p) (hpc : u.pc = s.pc) {c d : Bool} (hc : d = c) :
    SamePart (s.skip c) (u.skip d) p := by
  simpa only [State.skip, hpc, hc] using h.setPc (s.pc + if c then 4 else 2)

theorem SamePart.loadAndAdvance (h : SamePart s u p) (hpc : u.pc = s.pc) (x : Reg) {a b : Byte} (hb : b = a) :
    SamePart (s.loadAndAdvance x a) (u.loadAndAdvance x b) p :=
  hb ▸ (h.setReg x b).advance hpc

theorem SamePart.resultAndFlag (h : SamePart s u p) (hpc : u.pc = s.pc) (x : Reg) {a b : Byte} (hb : b = a)
    {c d : Bool} (hc : d = c) : SamePart (s.resultAndFlag x a c) (u.resultAndFlag x b d) p :=
  hb ▸ hc ▸ ((h.setReg x b).setReg Reg.VF _).advance hpc

/-! ### What an instruction does depends only on what it reads -/

theorem State.keyDown_congr (h : SamePart s u .keys) (b : Byte) : u.keyDown b = s.keyDown b := by
  simp only [SamePart] at h
  simp only [State.keyDown, h]

theorem drawResult_congr (hr : SamePart s u .regs) (hi : u.index = s.index) (hm : SamePart s u .mem)
    (hf : SamePart s u .frame) (x y : Reg) (n : Nibble) : drawResult x y n u = drawResult x y n s := by
  simp only [SamePart] at hr hm
  have hframe : u.frame = s.frame := Frame.ext_get hf
  simp only [drawResult, State.readBytes, hr, hi, hm, hframe]

theorem execRet_samePart {t v : State} (hs : u.stack = s.stack) (h : execRet s = .next t) (h' : execRet u = .next v)
    (hp : SamePart s u p) : SamePart t v p := by
  cases hw : s.stack with
  | nil =>
    cases (execRet_nil hw).symm.trans h
    cases (execRet_nil (hs.trans hw)).symm.trans h'
    exact hp
  | cons w ws =>
    cases (execRet_cons hw).symm.trans h
    cases (execRet_cons (hs.trans hw)).symm.trans h'
    exact (hp.setStack ws).setPc _

end SharedParts

/-- The parts no instruction reads; of them ST is compared with 0 by FX18 alone (45_timers.md R124). -/
def unreadParts : List Part :=
  [.st, .mode, .waitReg, .frameUpdated, .trace, .schedule, .scheduleEnd, .inputs]

/-- Two states that agree on what instructions read are left in agreement on every part they agreed on; for the events
of FX18 they must agree on whether ST is 0 too. -/
theorem exec_samePart {i : Instr} {s t u v : State} {p : Part} (hsu : OnlyChanges unreadParts s u)
    (hst : ∀ x, i = .ldStVx x → p = .trace → (u.st = 0 ↔ s.st = 0)) (h : exec i s = .next t) (h' : exec i u = .next v)
    (hp : SamePart s u p) : SamePart t v p := by
  have hregs : SamePart s u .regs := hsu .regs (by decide)
  have hreg : ∀ r, u.reg r = s.reg r := hregs
  have hpc : u.pc = s.pc := hsu .pc (by decide)
  have hindex : u.index = s.index := hsu .index (by decide)
  have hmem : SamePart s u .mem := hsu .mem (by decide)
  have hstack : u.stack = s.stack := hsu .stack (by decide)
  have hdt : u.dt = s.dt := hsu .dt (by decide)
  have hkeys : SamePart s u .keys := hsu .keys (by decide)
  cases i with
  | ret => exact execRet_samePart hstack h h' hp
  | cls => cases h; cases h'; exact ((hp.setFrame _).setFrameUpdated _).advance hpc
  | jp nnn => cases h; cases h'; exact hp.setPc nnn
  | jpV0 => cases h; cases h'; simp only [indexedTarget, hreg]; exact hp.setPc _
  | call nnn =>
    cases h; cases h'
    simp only [returnAddress, hpc, hstack]
    exact (hp.setStack _).setPc nnn
  | seImm | sneImm | seReg | sneReg => cases h; cases h'; exact hp.skip hpc (by simp only [hreg])
  | skp | sknp => cases h; cases h'; exact hp.skip hpc (by simp only [hreg, State.keyDown_congr hkeys])
  | ldImm | addImm | ldReg | orReg | andReg | xorReg =>
    cases h; cases h'; exact hp.loadAndAdvance hpc _ (by simp only [hreg])
  | addReg | sub | shr | subn | shl =>
    cases h; cases h'
    exact hp.resultAndFlag hpc _ (by simp only [shiftSource, hreg]) (by simp only [shiftSource, hreg])
  | ldI nnn => cases h; cases h'; exact (hp.setIndex nnn).advance hpc
  | ldF => cases h; cases h'; simp only [hreg]; exact (hp.setIndex _).advance hpc
  | addI =>
    cases h; cases h'
    simp only [indexPlus, hindex, hreg]
    exact ((hp.setIndex _).setReg _ _).advance hpc
  | rnd =>
    have hdraws : u.draws = s.draws := hsu .draws (by decide)
    cases h; cases h'
    exact hp.countDraw.loadAndAdvance hpc _ (by simp only [State.randomByte, hdraws])
  | drw =>
    cases h; cases h'
    simp only [drawResult_congr hregs hindex hmem (hsu .frame (by decide))]
    exact (((hp.setFrame _).setReg _ _).setFrameUpdated _).advance hpc
  | ldVxDt x => cases h; cases h'; exact hp.loadAndAdvance hpc x hdt
  | ldVxK x => cases h; cases h'; exact (hp.clearKeys.setWaitReg x).setMode _
  | ldDtVx =>
    cases h; cases h'
    exact (hp.setTimer (t := .delay) (fun _ => Eq.congr_left hdt) (hreg _)).advance (by simp [hpc])
  | ldStVx x => cases h; cases h'; exact (hp.setTimer (t := .sound) (hst x rfl) (hreg _)).advance (by simp [hpc])
  | ldB => cases h; cases h'; simp only [hindex, hreg]; exact (hp.writeBytes _ _).advance (by simp [hpc])
  | ldMemVx =>
    have hrun : u.reg = s.reg := funext hreg
    cases h; cases h'
    simp only [hindex, hrun]
    exact (hp.writeBytes _ _).advance (by simp [hpc])
  | ldVxMem => cases h; cases h'; exact (hp.loadRegs hindex hmem _).advance (by simp [hpc])

/-- Every instruction completes in every state (60_exceptions.md R134, 10_state.md R27). -/
theorem exec_completes (i : Instr) (s : State) : ∃ t : State, exec i s = .next t := by
  cases i with
  | ret =>
    cases hs : s.stack with
    | nil => exact ⟨_, execRet_nil hs⟩
    | cons w ws => exact ⟨_, execRet_cons hs⟩
  | _ => exact ⟨_, rfl⟩

/-- An instruction that runs from two states which differ in one unread part leaves states that differ at most in it. -/
theorem exec_onlyChanges_unread {i : Instr} {s t u v : State} {q : Part} (hq : q ∈ unreadParts) (hst : q ≠ .st)
    (hsu : OnlyChanges [q] s u) (h : exec i s = .next t) (h' : exec i u = .next v) : OnlyChanges [q] t v := by
  have hz : u.st = s.st := hsu .st (by simpa using hst.symm)
  intro p hp
  exact exec_samePart (hsu.mono (by simpa using hq)) (fun _ _ _ => Eq.congr_left hz) h h' (hsu p hp)

/-- Settles O53: what an instruction reads decides what it writes, and only the events of FX18 look at ST. -/
theorem instructionsIgnoreUnreadState : Obligations.InstructionsIgnoreUnreadState := by
  intro i s t b r n h
  obtain ⟨u, hu⟩ := exec_completes i (s.setFrameUpdated b)
  obtain ⟨v, hv⟩ := exec_completes i (s.setWaitReg r)
  obtain ⟨w, hw⟩ := exec_completes i (s.setCount .sound n)
  have hsw := s.setCount_sound_onlyChanges n
  have hsw' : OnlyChanges unreadParts s (s.setCount .sound n) := hsw.mono (by decide)
  refine ⟨⟨u, hu, exec_onlyChanges_unread (by decide) (by decide) (s.setFrameUpdated_onlyChanges b) h hu⟩,
    ⟨v, hv, exec_onlyChanges_unread (by decide) (by decide) (s.setWaitReg_onlyChanges r) h hv⟩,
    w, hw, fun p hp => ?_, fun hi => ?_, fun hz => ?_⟩
  · have hnt : p ≠ .trace := by rintro rfl; simp at hp
    exact exec_samePart hsw' (fun _ _ ht => absurd ht hnt) h hw (hsw.mono (by decide) p hp)
  · exact exec_samePart (p := .trace) hsw' (fun x hx => absurd hx (hi x)) h hw (hsw .trace (by decide))
  · exact exec_samePart (p := .trace) hsw' (fun _ _ _ => hz.symm) h hw (hsw .trace (by decide))

/-! ### What each step writes -/

/-- The parts a step may write whatever the CPU does: those of the host's events, and the model's own two of the
schedule (60_exceptions.md R142). -/
def hostParts : List Part := [.schedule, .inputs, .dt, .st, .trace, .keys, .frameUpdated]

theorem takeInput_onlyHostParts (s : State) : OnlyChanges hostParts s s.takeInput :=
  s.takeInput_onlyChanges.mono (by decide)

theorem HostMove.onlyChanges {s t : State} (h : HostMove s t) : OnlyChanges hostParts s t := by
  obtain rfl | rfl | ⟨k, c, rfl⟩ | rfl := h
  · exact (s.tick_onlyChanges _).mono (by decide)
  · exact (s.tick_onlyChanges _).mono (by decide)
  · exact (s.setKey_onlyChanges k c).mono (by decide)
  · exact (s.setFrameUpdated_onlyChanges _).mono (by decide)

theorem step_onlyHostParts_of_hostMove {s t : State} (h : HostMove s.takeInput t) : OnlyChanges hostParts s t :=
  ((takeInput_onlyHostParts s).trans h.onlyChanges).mono (by decide)

/-- A step of a running core that changes a part beyond the pc and the host's own runs an instruction that writes
that part (40_cycle.md R77). -/
theorem step_running_writes {s t : State} {p : Part} (hm : s.mode = .running) (h : step s = .next t)
    (hp : p ∉ .pc :: hostParts) (hc : ¬ SamePart s t p) :
    StepsNext s ∧ ∃ i, decode s.fetch = .ok i ∧ exec i s.takeInput = .next t ∧ p ∈ writtenParts i := by
  have hp' : p ∉ hostParts := fun hq => hp (List.mem_cons_of_mem _ hq)
  have hs : SamePart s s.takeInput p := takeInput_onlyHostParts s p hp'
  obtain ⟨hn, ⟨-, i, hd, he⟩ | ⟨-, -, rfl⟩ | ⟨hb, -⟩⟩ | hh := step_cases h
  · refine ⟨hn, i, s.takeInput_fetch ▸ hd, he, ?_⟩
    by_contra hw
    exact hc (hs.trans (exec_onlyChanges he p hw))
  · have hu := (execUnknown_onlyChanges s.takeInput.fetch s.takeInput).mono (qs := .pc :: hostParts) (by decide)
    exact absurd (hs.trans (hu p hp)) hc
  · simp [hm] at hb
  · exact absurd (step_onlyHostParts_of_hostMove hh p hp') hc

/-- All that a step of a blocked core can do: host's work only, or the capture of a DOWN key (46_keypad.md R132). -/
theorem step_blocked_cases {s t : State} (hm : s.mode = .blockedForInput) (h : step s = .next t) :
    OnlyChanges hostParts s t ∨ StepsNext s ∧ ∃ k : KeyCode, s.key k = .down ∧
      t = ((s.takeInput.setReg s.waitReg (BitVec.ofNat 8 k.val)).setMode .running).advance := by
  obtain ⟨hn, ⟨hr, -⟩ | ⟨hr, -⟩ | ⟨-, ht⟩⟩ | hh := step_cases h
  · simp [hm] at hr
  · simp [hm] at hr
  · obtain ⟨-, hb⟩ | ⟨k, hk, -, hb⟩ := blockedStep_cases s.takeInput
    · rw [ht, hb]
      exact .inl (takeInput_onlyHostParts s)
    · rw [s.takeInput_key] at hk
      rw [s.takeInput_waitReg] at hb
      exact .inr ⟨hn, k, hk, ht.trans hb⟩
  · exact .inl (step_onlyHostParts_of_hostMove hh)

/-! ### The mode -/

theorem eq_ldVxK_of_writes_mode {i : Instr} (h : .mode ∈ writtenParts i) : ∃ x, i = .ldVxK x := by
  cases i with
  | ldVxK x => exact ⟨x, rfl⟩
  | _ => simp [writtenParts] at h

/-- A step into the wait runs the FX0A at the pc, which stays there with its X latched (10_state.md R32, R33). -/
theorem step_enters_wait {s t : State} (h : step s = .next t) (hs : s.mode = .running)
    (ht : t.mode = .blockedForInput) :
    StepsNext s ∧ decode s.fetch = .ok (.ldVxK t.waitReg) ∧ t.fetch = s.fetch := by
  have hc : ¬ SamePart s t .mode := by simp [SamePart, hs, ht]
  obtain ⟨hn, i, hd, he, hw⟩ := step_running_writes hs h (by decide) hc
  obtain ⟨x, rfl⟩ := eq_ldVxK_of_writes_mode hw
  have kept := (takeInput_onlyHostParts s).trans (exec_onlyChanges he)
  refine ⟨hn, ?_, State.fetch_congr (kept .pc ?_) (kept .mem ?_)⟩
  · cases he; exact hd
  · simp [hostParts, writtenParts]
  · simp [hostParts, writtenParts]

/-- Settles O49: a running core changes its mode by an instruction alone, a blocked one by capturing a DOWN key. -/
theorem onlyAwaitKeyChangesTheMode : Obligations.OnlyAwaitKeyChangesTheMode := by
  intro s t h
  constructor
  · intro hs ht
    obtain ⟨hn, hd, -⟩ := step_enters_wait h hs ht
    exact ⟨hn, hd⟩
  · intro hs ht
    obtain hk | ⟨hn, k, hk, rfl⟩ := step_blocked_cases hs h
    · have hm : t.mode = s.mode := hk .mode (by decide)
      simp [hs, ht] at hm
    · have hlt : k.val < 256 := k.isLt.trans (by decide)
      exact ⟨hn, k, hk, by simpa using hlt⟩

/-- Settles O57: a step that stays in the wait touches neither the pc, memory nor `wait_reg`; a step that enters it
is the FX0A itself. -/
theorem stepKeepsTheAwaitKeyAtThePc : Obligations.StepKeepsTheAwaitKeyAtThePc := by
  intro s t hw h ht
  cases hs : s.mode with
  | running =>
    obtain ⟨-, hd, hf⟩ := step_enters_wait h hs ht
    rwa [hf]
  | blockedForInput =>
    obtain hk | ⟨-, k, -, rfl⟩ := step_blocked_cases hs h
    · have hf : t.fetch = s.fetch := State.fetch_congr (hk .pc (by decide)) (hk .mem (by decide))
      have hr : t.waitReg = s.waitReg := hk .waitReg (by decide)
      rw [hf, hr]
      exact hw hs
    · simp at ht

/-! ### The call stack -/

theorem eq_ret_or_call_of_writes_stack {i : Instr} (h : .stack ∈ writtenParts i) :
    i = .ret ∨ ∃ nnn, i = .call nnn := by
  cases i with
  | ret => exact .inl rfl
  | call nnn => exact .inr ⟨nnn, rfl⟩
  | _ => simp [writtenParts] at h

/-- A step that changes the call stack runs the RET or the CALL at the pc (10_state.md R26). -/
theorem step_moves_stack {s t : State} (h : step s = .next t) (hc : t.stack ≠ s.stack) :
    StepsNext s ∧ s.mode = .running ∧ ∃ i, decode s.fetch = .ok i ∧ exec i s.takeInput = .next t ∧
      (i = .ret ∨ ∃ nnn, i = .call nnn) := by
  cases hs : s.mode with
  | running =>
    obtain ⟨hn, i, hd, he, hw⟩ := step_running_writes (p := .stack) hs h (by decide) hc
    exact ⟨hn, rfl, i, hd, he, eq_ret_or_call_of_writes_stack hw⟩
  | blockedForInput =>
    obtain hk | ⟨-, k, -, rfl⟩ := step_blocked_cases hs h
    · exact absurd (hk .stack (by decide)) hc
    · simp at hc

/-- Settles O50: of what a step can do, only these two instructions write the stack. -/
theorem onlyCallAndReturnMoveTheStack : Obligations.OnlyCallAndReturnMoveTheStack := by
  intro s t h hc
  obtain ⟨hn, hs, i, hd, -, rfl | ⟨nnn, rfl⟩⟩ := step_moves_stack h hc
  · exact ⟨hn, hs, .inl hd⟩
  · exact ⟨hn, hs, .inr ⟨nnn, hd⟩⟩

theorem toNat_returnAddress_lt (s : State) : (returnAddress s).toNat < 4096 := by
  have h : (s.pc + 2).toNat < 4096 := (s.pc + 2).isLt
  simp only [returnAddress, BitVec.toNat_setWidth]
  omega

theorem execRet_stack_subset {s t : State} (h : execRet s = .next t) : t.stack ⊆ s.stack := by
  cases hs : s.stack with
  | nil =>
    cases (execRet_nil hs).symm.trans h
    simp [hs]
  | cons w ws =>
    cases (execRet_cons hs).symm.trans h
    simp

/-- Settles O58: a stack that moved lost its top entry, or got the masked return address. -/
theorem stepKeepsStackAddresses : Obligations.StepKeepsStackAddresses := by
  intro s t hs h
  by_cases hc : t.stack = s.stack
  · simpa only [StackHoldsAddresses, hc] using hs
  have hs' : StackHoldsAddresses s.takeInput := by simpa only [StackHoldsAddresses, s.takeInput_stack] using hs
  obtain ⟨-, -, i, -, he, rfl | ⟨nnn, rfl⟩⟩ := step_moves_stack h hc
  · exact fun w hw => hs' w (execRet_stack_subset he hw)
  · cases he
    exact List.forall_mem_cons.mpr ⟨toNat_returnAddress_lt _, hs'⟩

/-! ### Reset -/

/-- Settles O59: memory lists nothing, so every byte is the font's or `INIT_MEM`. -/
theorem resetState : Obligations.ResetState := by
  refine ⟨?_, rfl, rfl, rfl, rfl, rfl, rfl, rfl, ?_, ?_, rfl, rfl, rfl, ?_, ?_⟩
  · intro r
    simp [State.reg, State.reset]
  · intro k
    simp [State.key, State.reset]
  · intro x y
    simp [State.frameRead, Frame.get, State.reset]
  · decide
  · intro a h h'
    have hf : ¬ a < 80 := by omega
    simp [State.readByte, State.reset, Memory.read, Params.initialByte, Params.fontBase, Params.initMem,
      Nat.mod_eq_of_lt h', hf]

end Sys2Proof.Machine

/-! PROOF. What a word read is made of, what a run of byte writes leaves (20_memory.md R42 to R47), what an instruction
and a step can do to memory (R47, R60, R62), and the obligations of 20_memory.md, each after the rules it needs. -/

namespace Sys2Proof.Machine

/-! ### What an instruction and a step can do to the memory list -/

theorem execRet_mem {s t : State} (h : execRet s = .next t) : t.mem = s.mem := by
  cases hs : s.stack with
  | nil => cases (execRet_nil hs).symm.trans h; rfl
  | cons w ws => cases (execRet_cons hs).symm.trans h; rfl

/-- An instruction leaves the memory list as a run of byte writes from I on does; where it stores nothing the run is
empty (20_memory.md R47). -/
theorem exec_mem {i : Instr} {s t : State} (h : exec i s = .next t) :
    ∃ bs : List Byte, t.mem = (s.writeBytes s.index.toNat bs).mem := by
  cases i with
  | ldB | ldMemVx => cases h; exact ⟨_, rfl⟩
  | ret => exact ⟨[], execRet_mem h⟩
  | ldVxMem x => cases h; exact ⟨[], s.loadRegs_mem (regsUpTo x)⟩
  | ldDtVx | ldStVx => cases h; exact ⟨[], s.setTimer_mem _ _⟩
  | _ => cases h; exact ⟨[], rfl⟩

/-- A CPU step leaves the memory list as a run of byte writes from I on does. -/
theorem CpuMove.mem {s t : State} (h : CpuMove s t) :
    ∃ bs : List Byte, t.mem = (s.writeBytes s.index.toNat bs).mem := by
  obtain ⟨-, i, -, he⟩ | ⟨-, -, rfl⟩ | ⟨-, rfl⟩ := h
  · exact exec_mem he
  · exact ⟨[], rfl⟩
  · obtain ⟨-, hb⟩ | ⟨k, -, -, hb⟩ := blockedStep_cases s <;> exact ⟨[], by rw [hb]; rfl⟩

/-- No event of the host but `Step` touches the memory list (60_exceptions.md R142). -/
theorem HostMove.mem {s t : State} (h : HostMove s t) : t.mem = s.mem := by
  obtain rfl | rfl | ⟨k, c, rfl⟩ | rfl := h
  · exact s.tick_mem _
  · exact s.tick_mem _
  · rfl
  · rfl

/-- Settles O55: a step writes memory by runs of byte writes alone, and each of them keeps the canonical form. -/
theorem stepKeepsMemoryCanonical : Obligations.StepKeepsMemoryCanonical := by
  intro s t hs h
  rw [← s.takeInput_mem] at hs
  obtain ⟨-, hc⟩ | hh := step_cases h
  · obtain ⟨bs, hb⟩ := hc.mem
    rw [hb]
    exact State.wf_writeBytes _ _ bs hs
  · rwa [hh.mem]

/-! ### What a word read is made of -/

/-- A word is read big-endian (20_memory.md R43). -/
theorem State.readWord_toNat (s : State) (a : Nat) :
    (s.readWord a).toNat = 256 * (s.readByte a).toNat + (s.readByte (a + 1)).toNat := by
  have h := append_toNat (s.readByte a) (s.readByte (a + 1))
  rw [State.readWord]
  omega

/-- The fetched word is the word at the pc (40_cycle.md R77). -/
theorem State.fetch_toNat (s : State) :
    s.fetch.toNat = 256 * (s.readByte s.pc.toNat).toNat + (s.readByte (s.pc.toNat + 1)).toNat :=
  s.readWord_toNat s.pc.toNat

/-! ### The next fetch after FX55 -/

/-- FX55 leaves the old Vk at I + k, for each k up to X (43_index_memory.md R114). -/
theorem exec_ldMemVx_readByte {x k : Reg} {s t : State} (h : exec (.ldMemVx x) s = .next t) (hk : k.val ≤ x.val) :
    t.readByte (s.index.toNat + k.val) = s.reg k := by
  have hlen : ((regsUpTo x).map s.reg).length = x.val + 1 := by rw [List.length_map, length_regsUpTo]
  have hlt : k.val < ((regsUpTo x).map s.reg).length := by omega
  cases h
  rw [State.advance_readByte, State.blockIndex_eq, State.readByte_writeBytes_at _ _ _ _ hlt (by omega),
    List.getElem_map]
  exact congrArg s.reg (Fin.ext (getElem_regsUpTo x k.val _))

/-- Settles O28: the two bytes at the new pc are stored ones, and the fetch reads them big-endian. -/
theorem nextFetchSeesTheStore : Obligations.NextFetchSeesTheStore := by
  intro x k s t h hk hpc
  have hsucc : (k + 1).val = k.val + 1 := by omega
  have hhi : t.readByte t.pc.toNat = s.reg k := by
    rw [t.readByte_congr (c := s.index.toNat + k.val) (by omega)]
    exact exec_ldMemVx_readByte h (by omega)
  have hlo : t.readByte (t.pc.toNat + 1) = s.reg (k + 1) := by
    rw [t.readByte_congr (c := s.index.toNat + (k + 1).val) (by omega)]
    exact exec_ldMemVx_readByte h (by omega)
  rw [t.fetch_toNat, hhi, hlo]

/-! ### Which steps change a byte -/

/-- A byte an instruction changes is one of those it stores from I on (20_memory.md R47). -/
theorem exec_changes_byte {i : Instr} {s t : State} {a : Nat} (h : exec i s = .next t)
    (hc : t.readByte a ≠ s.readByte a) :
    ∃ k : Nat, k < storedBytes i ∧ a % 4096 = (s.index.toNat + k) % 4096 := by
  by_contra hn
  exact hc (exec_bytesKept h a fun k hk ha => hn ⟨k, hk, ha⟩)

/-- A step that changes a byte of memory runs the instruction at the pc, and the byte is one it stores
(20_memory.md R47, R62). -/
theorem step_changes_byte {s t : State} {a : Nat} (h : step s = .next t) (hc : t.readByte a ≠ s.readByte a) :
    StepsNext s ∧ s.mode = .running ∧ ∃ i, decode s.fetch = .ok i ∧
      ∃ k : Nat, k < storedBytes i ∧ a % 4096 = (s.index.toNat + k) % 4096 := by
  cases hs : s.mode with
  | running =>
    obtain ⟨hn, i, hd, he, -⟩ := step_running_writes (p := .mem) hs h (by decide) fun hm => hc (hm a)
    rw [← s.takeInput_readByte] at hc
    exact ⟨hn, rfl, i, hd, s.takeInput_index ▸ exec_changes_byte he hc⟩
  | blockedForInput =>
    obtain hk | ⟨-, k, -, rfl⟩ := step_blocked_cases hs h
    · exact absurd (hk .mem (by decide) a) hc
    · simp at hc

/-- Settles O51: of the 34 instructions only FX33 and FX55 store a byte at all. -/
theorem onlyStoresChangeMemory : Obligations.OnlyStoresChangeMemory := by
  intro s t a h hc
  obtain ⟨hn, hs, i, hd, k, hk, ha⟩ := step_changes_byte h hc
  refine ⟨hn, hs, ?_⟩
  cases i with
  | ldB x => exact ⟨x, .inl ⟨hd, k, hk, ha⟩⟩
  | ldMemVx x => exact ⟨x, .inr ⟨hd, k, Nat.le_of_lt_succ hk, ha⟩⟩
  | _ => exact absurd hk (Nat.not_lt_zero k)

/-! ### Byte and word accesses -/

theorem State.writeBytes_bytesKept (s : State) (a : Nat) (bs : List Byte) :
    BytesKept a bs.length s (s.writeBytes a bs) :=
  s.readByte_writeBytes_other a bs

/-- Settles O6: a byte access counts its address modulo 4096, and a byte write is a run of one. -/
theorem byteReadAfterWrite : Obligations.ByteReadAfterWrite := by
  intro s a b
  have hmod : a % 4096 = a % 4096 % 4096 := (Nat.mod_mod a 4096).symm
  have hread : (s.writeByte a b).readByte a = b := by rw [State.readByte_writeByte, if_pos rfl]
  exact ⟨s.readByte_congr hmod, hread, (State.readByte_congr _ hmod).symm.trans hread,
    s.writeBytes_bytesKept a [b], s.writeBytes_onlyChanges a [b]⟩

/-- The bytes a word write stores, the high one first (20_memory.md R44). -/
def wordBytes (w : Word) : List Byte := [w.extractLsb' 8 8, w.extractLsb' 0 8]

@[simp] theorem length_wordBytes (w : Word) : (wordBytes w).length = 2 := rfl

theorem State.writeWord_eq_writeBytes (s : State) (a : Nat) (w : Word) :
    s.writeWord a w = s.writeBytes a (wordBytes w) := rfl

/-- The high byte of a written word stands at the address itself (20_memory.md R44). -/
theorem State.readByte_writeWord_high (s : State) (a : Nat) (w : Word) :
    ((s.writeWord a w).readByte a).toNat = w.toNat / 256 := by
  have h : (s.writeWord a w).readByte a = w.extractLsb' 8 8 :=
    s.readByte_writeBytes_at a (wordBytes w) 0 (by simp) (by simp)
  have hw := w.isLt
  simp only [h, BitVec.extractLsb'_toNat, Nat.shiftRight_eq_div_pow]
  omega

/-- The low byte of a written word stands at the next address (20_memory.md R44). -/
theorem State.readByte_writeWord_low (s : State) (a : Nat) (w : Word) :
    ((s.writeWord a w).readByte (a + 1)).toNat = w.toNat % 256 := by
  have h : (s.writeWord a w).readByte (a + 1) = w.extractLsb' 0 8 :=
    s.readByte_writeBytes_at a (wordBytes w) 1 (by simp) (by simp)
  simp only [h, BitVec.extractLsb'_toNat, Nat.shiftRight_eq_div_pow]
  omega

/-- Settles O7: the word read is made of the two bytes written, high byte first. -/
theorem wordReadAfterWrite : Obligations.WordReadAfterWrite := by
  intro s a w
  have hhi := s.readByte_writeWord_high a w
  have hlo := s.readByte_writeWord_low a w
  rw [s.writeWord_eq_writeBytes] at hhi hlo ⊢
  refine ⟨BitVec.eq_of_toNat_eq ?_, hhi, hlo, s.writeBytes_bytesKept a (wordBytes w),
    s.writeBytes_onlyChanges a (wordBytes w)⟩
  rw [State.readWord_toNat, hhi, hlo]
  exact Nat.div_add_mod w.toNat 256

/-- Settles O8: the fetch is a word read at the pc, and the address of its low byte counts modulo 4096. -/
theorem fetchIsBigEndian : Obligations.FetchIsBigEndian := by
  intro s
  rw [s.fetch_toNat, s.readByte_congr (Nat.mod_mod (s.pc.toNat + 1) 4096)]

end Sys2Proof.Machine

/-! PROOF. The encoder against the decoder: every encoding decodes to its instruction, every word that decodes is an
encoding, the words a row of the opcode map selects are the encodings with its mnemonic, and which word each class of
unknown words rejects (30_encoding.md R63 to R71); each obligation of 30_encoding.md after the rules it needs. -/

namespace Sys2Proof

open Sys2Proof.Laws

/-! ### Decoding what the encoder assembles -/

/-- Settles O1: each word is written out, so the decoder computes. -/
theorem sampleWordsDecode : Obligations.SampleWordsDecode :=
  ⟨rfl, rfl, rfl, rfl, rfl, rfl, rfl, rfl, rfl, rfl, rfl⟩

/-- The decoder gives every instruction back from its word, by the fields of the word's format (30_encoding.md R66). -/
theorem decode_encode (i : Instr) : decode (encode i) = .ok i := by
  cases i with
  | cls | ret => rfl
  | jp | call | ldI | jpV0 => simp [encode, decode, opField_formatNNN, nnnField_formatNNN]
  | seImm | sneImm | ldImm | addImm | rnd =>
    simp [encode, decode, opField_formatXNN, xField_formatXNN, nnField_formatXNN]
  | skp | sknp => simp [encode, decode, decodeE, opField_formatXNN, xField_formatXNN, nnField_formatXNN]
  | ldVxDt | ldVxK | ldDtVx | ldStVx | addI | ldF | ldB | ldMemVx | ldVxMem =>
    simp [encode, decode, decodeF, opField_formatXNN, xField_formatXNN, nnField_formatXNN]
  | drw => simp [encode, decode, opField_formatXYN, xField_formatXYN, yField_formatXYN, nField_formatXYN]
  | seReg | sneReg =>
    simp [encode, decode, decode5, decode9, lastNibbleOk_iff, opField_formatXYN, xField_formatXYN, yField_formatXYN,
      nField_formatXYN]
  | ldReg | orReg | andReg | xorReg | addReg | sub | shr | subn | shl =>
    simp [encode, decode, decode8, opField_formatXYN, xField_formatXYN, yField_formatXYN, nField_formatXYN]

/-- A word is made of its two bytes (20_memory.md R43). -/
theorem wordOfBytes_extract (w : Word) : wordOfBytes (w.extractLsb' 8 8) (w.extractLsb' 0 8) = w := by
  apply BitVec.eq_of_toNat_eq
  rw [wordOfBytes, append_toNat]
  simp only [BitVec.extractLsb'_toNat, Nat.shiftRight_eq_div_pow]
  omega

theorem decodeBytes_encodeBytes (i : Instr) (rest : List Byte) :
    decodeBytes (encodeBytes i ++ rest) = .ok (i, rest) := by
  simp only [encodeBytes, List.cons_append, List.nil_append, decodeBytes, wordOfBytes_extract, decode_encode]

/-- Settles O2: the word by its format's fields, the bytes because they make the word again. -/
theorem everyInstructionRoundTrips : Obligations.EveryInstructionRoundTrips :=
  fun i => ⟨decode_encode i, decodeBytes_encodeBytes i⟩

/-! ### Encoding what the decoder reads -/

section
variable {w : Word} {op n : Nibble} {nn : Byte}

theorem formatNNN_eq_of_opField (hop : opField w = op) : formatNNN op (nnnField w) = w :=
  hop ▸ formatNNN_fields w

theorem formatXNN_eq_of_opField (hop : opField w = op) : formatXNN op (xField w) (nnField w) = w :=
  hop ▸ formatXNN_fields w

theorem formatXYN_eq_of_opField (hop : opField w = op) : formatXYN op (xField w) (yField w) (nField w) = w :=
  hop ▸ formatXYN_fields w

theorem formatXNN_eq_of_nnField (hop : opField w = op) (hnn : nnField w = nn) : formatXNN op (xField w) nn = w :=
  hnn ▸ formatXNN_eq_of_opField hop

theorem formatXYN_eq_of_nField (hop : opField w = op) (hn : nField w = n) :
    formatXYN op (xField w) (yField w) n = w :=
  hn ▸ formatXYN_eq_of_opField hop

/-- Under strict decoding an accepted last nibble is 0 (30_encoding.md R70, D16). -/
theorem formatXYN_eq_of_lastNibbleOk (hop : opField w = op) (hn : lastNibbleOk (nField w) = true) :
    formatXYN op (xField w) (yField w) 0x0 = w :=
  formatXYN_eq_of_nField hop (by rwa [lastNibbleOk_iff, beq_iff_eq] at hn)

end

/-- Family 0: the two words it knows are the encodings of CLS and RET. -/
theorem encode_of_decode0 {w : Word} {i : Instr} (hop : opField w = 0x0) (h : decode0 w = .ok i) : encode i = w := by
  unfold decode0 at h
  split_ifs at h with hcls hret <;> cases h
  · exact (congrArg (formatNNN 0x0) hcls.symm).trans (formatNNN_eq_of_opField hop)
  · exact (congrArg (formatNNN 0x0) hret.symm).trans (formatNNN_eq_of_opField hop)

theorem encode_of_decode5 {w : Word} {i : Instr} (hop : opField w = 0x5) (h : decode5 w = .ok i) : encode i = w := by
  unfold decode5 at h
  split_ifs at h with hn
  cases h
  exact formatXYN_eq_of_lastNibbleOk hop hn

theorem encode_of_decode9 {w : Word} {i : Instr} (hop : opField w = 0x9) (h : decode9 w = .ok i) : encode i = w := by
  unfold decode9 at h
  split_ifs at h with hn
  cases h
  exact formatXYN_eq_of_lastNibbleOk hop hn

/-- Family 8: the low nibble the decoder matched on is the one the encoder writes. -/
theorem encode_of_decode8 {w : Word} {i : Instr} (hop : opField w = 0x8) (h : decode8 w = .ok i) : encode i = w := by
  unfold decode8 at h
  split at h <;> cases h <;> exact formatXYN_eq_of_nField hop (BitVec.eq_of_toNat_eq ‹_›)

/-- Family E: the low byte the decoder tested for is the one the encoder writes. -/
theorem encode_of_decodeE {w : Word} {i : Instr} (hop : opField w = 0xE) (h : decodeE w = .ok i) : encode i = w := by
  unfold decodeE at h
  split_ifs at h <;> cases h <;> exact formatXNN_eq_of_nnField hop ‹nnField w = _›

/-- Family F: the low byte the decoder tested for is the one the encoder writes. -/
theorem encode_of_decodeF {w : Word} {i : Instr} (hop : opField w = 0xF) (h : decodeF w = .ok i) : encode i = w := by
  unfold decodeF at h
  split_ifs at h <;> cases h <;> exact formatXNN_eq_of_nnField hop ‹nnField w = _›

/-- Settles O3: the families with no function hold every field of their word; each other family keeps its function by
its own lemma. The split's case `h_k` is family `k - 1`. -/
theorem decodedWordIsTheEncoding : Obligations.DecodedWordIsTheEncoding := by
  intro w i h
  have hlt := (opField w).isLt
  unfold decode at h
  split at h
  case h_1 hop => exact encode_of_decode0 (BitVec.eq_of_toNat_eq hop) h
  case h_6 hop => exact encode_of_decode5 (BitVec.eq_of_toNat_eq hop) h
  case h_9 hop => exact encode_of_decode8 (BitVec.eq_of_toNat_eq hop) h
  case h_10 hop => exact encode_of_decode9 (BitVec.eq_of_toNat_eq hop) h
  case h_15 hop => exact encode_of_decodeE (BitVec.eq_of_toNat_eq hop) h
  case h_16 =>
    have hop : (opField w).toNat = 0xF := by simp only [imp_false] at *; omega
    exact encode_of_decodeF (BitVec.eq_of_toNat_eq hop) h
  case h_14 hop => cases h; exact formatXYN_eq_of_opField (BitVec.eq_of_toNat_eq hop)
  case h_2 hop | h_3 hop | h_11 hop | h_12 hop =>
    cases h; exact formatNNN_eq_of_opField (BitVec.eq_of_toNat_eq hop)
  case h_4 hop | h_5 hop | h_7 hop | h_8 hop | h_13 hop =>
    cases h; exact formatXNN_eq_of_opField (BitVec.eq_of_toNat_eq hop)

/-! ### The words a row of the opcode map selects -/

section
variable {name : String} {w c : Word} {op n : Nibble} {nn : Byte}

theorem opField_of_selects_family (h : (OpcodeRow.mk name c 0xF000#16).selects w = true) (hc : formatNNN op 0 = c) :
    opField w = op := by
  rw [OpcodeRow.selects, beq_iff_eq, and_family, ← hc] at h
  simpa only [opField_formatNNN] using congrArg opField h

theorem formatNNN_eq_of_selects (h : (OpcodeRow.mk name c 0xF000#16).selects w = true) (hc : formatNNN op 0 = c) :
    formatNNN op (nnnField w) = w :=
  formatNNN_eq_of_opField (opField_of_selects_family h hc)

theorem formatXNN_eq_of_selects (h : (OpcodeRow.mk name c 0xF000#16).selects w = true) (hc : formatNNN op 0 = c) :
    formatXNN op (xField w) (nnField w) = w :=
  formatXNN_eq_of_opField (opField_of_selects_family h hc)

theorem formatXYN_eq_of_selects (h : (OpcodeRow.mk name c 0xF000#16).selects w = true) (hc : formatNNN op 0 = c) :
    formatXYN op (xField w) (yField w) (nField w) = w :=
  formatXYN_eq_of_opField (opField_of_selects_family h hc)

/-- A row of format XFF fixes the family and the low byte of the words it selects. -/
theorem formatXNN_eq_of_selects_function (h : (OpcodeRow.mk name c 0xF0FF#16).selects w = true)
    (hc : formatXNN op 0 nn = c) : formatXNN op (xField w) nn = w := by
  rw [OpcodeRow.selects, beq_iff_eq, and_functionByte, ← hc] at h
  exact formatXNN_eq_of_nnField (by simpa only [opField_formatXNN] using congrArg opField h)
    (by simpa only [nnField_formatXNN] using congrArg nnField h)

/-- A row of format XYF fixes the family and the low nibble of the words it selects. -/
theorem formatXYN_eq_of_selects_function (h : (OpcodeRow.mk name c 0xF00F#16).selects w = true)
    (hc : formatXYN op 0 0 n = c) : formatXYN op (xField w) (yField w) n = w := by
  rw [OpcodeRow.selects, beq_iff_eq, and_functionNibble, ← hc] at h
  exact formatXYN_eq_of_nField (by simpa only [opField_formatXYN] using congrArg opField h)
    (by simpa only [nField_formatXYN] using congrArg nField h)

/-- A row whose mask holds every bit selects one word. -/
theorem eq_of_selects_allOnes (h : (OpcodeRow.mk name c 0xFFFF#16).selects w = true) : c = w := by
  rw [OpcodeRow.selects, beq_iff_eq] at h
  exact h.symm.trans BitVec.and_allOnes

end

/-- If the word selects the row, it is the encoding of an instruction with the row's mnemonic (30_encoding.md R68). -/
def EncodesIfSelected (w : Word) (row : OpcodeRow) : Prop :=
  row.selects w = true → ∃ i : Instr, i.mnemonic = row.mnemonic ∧ encode i = w

theorem opcodeRowsLow_encodesIfSelected (w : Word) : ∀ row ∈ opcodeRowsLow, EncodesIfSelected w row := by
  simp only [opcodeRowsLow, List.forall_mem_cons]
  exact ⟨fun h => ⟨.cls, rfl, eq_of_selects_allOnes h⟩,
    fun h => ⟨.ret, rfl, eq_of_selects_allOnes h⟩,
    fun h => ⟨.jp (nnnField w), rfl, formatNNN_eq_of_selects h rfl⟩,
    fun h => ⟨.call (nnnField w), rfl, formatNNN_eq_of_selects h rfl⟩,
    fun h => ⟨.seImm (xField w) (nnField w), rfl, formatXNN_eq_of_selects h rfl⟩,
    fun h => ⟨.sneImm (xField w) (nnField w), rfl, formatXNN_eq_of_selects h rfl⟩,
    fun h => ⟨.seReg (xField w) (yField w), rfl, formatXYN_eq_of_selects_function h rfl⟩,
    fun h => ⟨.ldImm (xField w) (nnField w), rfl, formatXNN_eq_of_selects h rfl⟩,
    fun h => ⟨.addImm (xField w) (nnField w), rfl, formatXNN_eq_of_selects h rfl⟩,
    List.forall_mem_nil _⟩

theorem opcodeRowsAlu_encodesIfSelected (w : Word) : ∀ row ∈ opcodeRowsAlu, EncodesIfSelected w row := by
  simp only [opcodeRowsAlu, List.forall_mem_cons]
  exact ⟨fun h => ⟨.ldReg (xField w) (yField w), rfl, formatXYN_eq_of_selects_function h rfl⟩,
    fun h => ⟨.orReg (xField w) (yField w), rfl, formatXYN_eq_of_selects_function h rfl⟩,
    fun h => ⟨.andReg (xField w) (yField w), rfl, formatXYN_eq_of_selects_function h rfl⟩,
    fun h => ⟨.xorReg (xField w) (yField w), rfl, formatXYN_eq_of_selects_function h rfl⟩,
    fun h => ⟨.addReg (xField w) (yField w), rfl, formatXYN_eq_of_selects_function h rfl⟩,
    fun h => ⟨.sub (xField w) (yField w), rfl, formatXYN_eq_of_selects_function h rfl⟩,
    fun h => ⟨.shr (xField w) (yField w), rfl, formatXYN_eq_of_selects_function h rfl⟩,
    fun h => ⟨.subn (xField w) (yField w), rfl, formatXYN_eq_of_selects_function h rfl⟩,
    fun h => ⟨.shl (xField w) (yField w), rfl, formatXYN_eq_of_selects_function h rfl⟩,
    List.forall_mem_nil _⟩

theorem opcodeRowsMid_encodesIfSelected (w : Word) : ∀ row ∈ opcodeRowsMid, EncodesIfSelected w row := by
  simp only [opcodeRowsMid, List.forall_mem_cons]
  exact ⟨fun h => ⟨.sneReg (xField w) (yField w), rfl, formatXYN_eq_of_selects_function h rfl⟩,
    fun h => ⟨.ldI (nnnField w), rfl, formatNNN_eq_of_selects h rfl⟩,
    fun h => ⟨.jpV0 (nnnField w), rfl, formatNNN_eq_of_selects h rfl⟩,
    fun h => ⟨.rnd (xField w) (nnField w), rfl, formatXNN_eq_of_selects h rfl⟩,
    fun h => ⟨.drw (xField w) (yField w) (nField w), rfl, formatXYN_eq_of_selects h rfl⟩,
    fun h => ⟨.skp (xField w), rfl, formatXNN_eq_of_selects_function h rfl⟩,
    fun h => ⟨.sknp (xField w), rfl, formatXNN_eq_of_selects_function h rfl⟩,
    List.forall_mem_nil _⟩

theorem opcodeRowsF_encodesIfSelected (w : Word) : ∀ row ∈ opcodeRowsF, EncodesIfSelected w row := by
  simp only [opcodeRowsF, List.forall_mem_cons]
  exact ⟨fun h => ⟨.ldVxDt (xField w), rfl, formatXNN_eq_of_selects_function h rfl⟩,
    fun h => ⟨.ldVxK (xField w), rfl, formatXNN_eq_of_selects_function h rfl⟩,
    fun h => ⟨.ldDtVx (xField w), rfl, formatXNN_eq_of_selects_function h rfl⟩,
    fun h => ⟨.ldStVx (xField w), rfl, formatXNN_eq_of_selects_function h rfl⟩,
    fun h => ⟨.addI (xField w), rfl, formatXNN_eq_of_selects_function h rfl⟩,
    fun h => ⟨.ldF (xField w), rfl, formatXNN_eq_of_selects_function h rfl⟩,
    fun h => ⟨.ldB (xField w), rfl, formatXNN_eq_of_selects_function h rfl⟩,
    fun h => ⟨.ldMemVx (xField w), rfl, formatXNN_eq_of_selects_function h rfl⟩,
    fun h => ⟨.ldVxMem (xField w), rfl, formatXNN_eq_of_selects_function h rfl⟩,
    List.forall_mem_nil _⟩

/-- A word that selects a row of the opcode map is the encoding of an instruction with the row's mnemonic. -/
theorem exists_encode_of_selects {w : Word} {row : OpcodeRow} (hrow : row ∈ opcodeTable)
    (h : row.selects w = true) : ∃ i : Instr, i.mnemonic = row.mnemonic ∧ encode i = w := by
  simp only [opcodeTable, List.mem_append] at hrow
  obtain ((hr | hr) | hr) | hr := hrow
  · exact opcodeRowsLow_encodesIfSelected w row hr h
  · exact opcodeRowsAlu_encodesIfSelected w row hr h
  · exact opcodeRowsMid_encodesIfSelected w row hr h
  · exact opcodeRowsF_encodesIfSelected w row hr h

/-- Every instruction's word selects the row with the instruction's mnemonic: the family `MatchesRow`, in the order of
the constructors. -/
theorem encode_selects_row (i : Instr) : MatchesRow.Statement i :=
  open MatchesRow in
  Instr.rec (motive := Statement) cls ret jp call seImm sneImm seReg ldImm addImm ldReg orReg andReg xorReg addReg sub
    shr subn shl sneReg ldI jpV0 rnd drw skp sknp ldVxDt ldVxK ldDtVx ldStVx addI ldF ldB ldMemVx ldVxMem i

/-- A mnemonic names one row of the opcode map. -/
theorem opcodeTable_mnemonic_nodup : (opcodeTable.map OpcodeRow.mnemonic).Nodup := by decide

/-- Settles O4: the words of the rows are the encodings with the rows' mnemonics, and an encoding decodes to its
instruction alone. -/
theorem decodingFollowsTheOpcodeMap : Obligations.DecodingFollowsTheOpcodeMap := by
  refine ⟨fun w => ?_, fun w i hd row hrow => ?_⟩
  · simp only [wordKnown, List.any_eq_true]
    constructor
    · rintro ⟨row, hrow, hsel⟩
      obtain ⟨i, -, rfl⟩ := exists_encode_of_selects hrow hsel
      exact ⟨i, decode_encode i⟩
    · rintro ⟨i, hd⟩
      obtain ⟨row, hrow, -, hsel⟩ := encode_selects_row i
      exact ⟨row, hrow, decodedWordIsTheEncoding w i hd ▸ hsel⟩
  · obtain rfl := decodedWordIsTheEncoding w i hd
    constructor
    · intro hsel
      obtain ⟨j, hj, hji⟩ := exists_encode_of_selects hrow hsel
      have hij : (.ok i : Except Reject Instr) = .ok j := by rw [← decode_encode i, ← hji, decode_encode j]
      cases hij
      exact hj.symm
    · intro hname
      obtain ⟨row', hrow', hname', hsel⟩ := encode_selects_row i
      rwa [List.inj_on_of_nodup_map opcodeTable_mnemonic_nodup hrow hrow' (hname.trans hname'.symm)]

/-! ### The words the decoder rejects -/

section
variable (w : Word) (r : Reject)

theorem decode0_error_iff :
    decode0 w = .error r ↔ Reject.unknown0NNN = r ∧ w.toNat % 4096 ∉ [0x0E0, 0x0EE] := by
  simp only [decode0, ← BitVec.toNat_inj, nnnField_toNat]
  split_ifs <;> simp_all

theorem decode5_error_iff : decode5 w = .error r ↔ Reject.unknown5XYn = r ∧ w.toNat % 16 ≠ 0 := by
  simp only [decode5, lastNibbleOk_iff, beq_iff_eq, ← BitVec.toNat_inj, nField_toNat]
  split_ifs <;> simp_all

theorem decode8_error_iff :
    decode8 w = .error r ↔ Reject.unknown8XYn = r ∧ w.toNat % 16 ∈ [8, 9, 0xA, 0xB, 0xC, 0xD, 0xF] := by
  simp only [decode8, nField_toNat]
  split
  case h_10 =>
    simp only [imp_false, Except.error.injEq, List.mem_cons, List.not_mem_nil, or_false] at *
    exact (and_iff_left (by omega)).symm
  all_goals simp [*]

theorem decode9_error_iff : decode9 w = .error r ↔ Reject.unknown9XYn = r ∧ w.toNat % 16 ≠ 0 := by
  simp only [decode9, lastNibbleOk_iff, beq_iff_eq, ← BitVec.toNat_inj, nField_toNat]
  split_ifs <;> simp_all

theorem decodeE_error_iff : decodeE w = .error r ↔ Reject.unknownEXkk = r ∧ w.toNat % 256 ∉ [0x9E, 0xA1] := by
  simp only [decodeE, ← BitVec.toNat_inj, nnField_toNat]
  split_ifs <;> simp_all

theorem decodeF_error_iff : decodeF w = .error r ↔ Reject.unknownFXkk = r ∧
    w.toNat % 256 ∉ [0x07, 0x0A, 0x15, 0x18, 0x1E, 0x29, 0x33, 0x55, 0x65] := by
  simp only [decodeF, ← BitVec.toNat_inj, nnField_toNat]
  split_ifs <;> simp_all

/-- Only the six families with unknown words reject a word (30_encoding.md R71). -/
theorem decode_error_iff : decode w = .error r ↔
    w.toNat / 4096 = 0x0 ∧ decode0 w = .error r ∨ w.toNat / 4096 = 0x5 ∧ decode5 w = .error r ∨
    w.toNat / 4096 = 0x8 ∧ decode8 w = .error r ∨ w.toNat / 4096 = 0x9 ∧ decode9 w = .error r ∨
    w.toNat / 4096 = 0xE ∧ decodeE w = .error r ∨ w.toNat / 4096 = 0xF ∧ decodeF w = .error r := by
  have := w.isLt
  simp only [decode, opField_toNat]
  split
  case h_16 =>
    have hop : w.toNat / 4096 = 0xF := by simp only [imp_false] at *; omega
    simp [hop, -Nat.div_eq_zero_iff]
  all_goals simp [*]

end

/-- Settles O5: each family rejects by its own name, so a name tells the family; in family 0 the low 12 bits are the
whole word. -/
theorem unknownWordsAreRejectedByClass : Obligations.UnknownWordsAreRejectedByClass := by
  intro w
  simp only [decode_error_iff, decode0_error_iff, decode5_error_iff, decode8_error_iff, decode9_error_iff,
    decodeE_error_iff, decodeF_error_iff, ne_eq, reduceCtorEq, false_and, and_false, or_false, false_or, true_and,
    not_false_eq_true, and_true]
  simp only [List.mem_cons, List.not_mem_nil, or_false]
  omega

end Sys2Proof

/-! PROOF. The cycle from its outcome: what the CPU step answers on a word that decodes, on an unknown word and while
blocked (40_cycle.md R76, R77, R82, R85), and the obligations of 40_cycle.md. -/

namespace Sys2Proof.Machine

/-! ### The pc -/

/-- The default advance adds 2 on 12 bits (40_cycle.md R79). -/
theorem State.advance_pcAdvances (s : State) : PcAdvances s s.advance :=
  BitVec.toNat_add s.pc 2

theorem State.setPc_self (s : State) : s.setPc s.pc = s := rfl

/-! ### The CPU step -/

/-- A running core executes the instruction at the pc, and nothing else (40_cycle.md R77). -/
theorem cpuStep_decoded {s : State} {i : Instr} (hm : s.mode = .running) (hd : decode s.fetch = .ok i) :
    cpuStep s = exec i s :=
  (cpuStep_running s hm).trans (runningStep_ok s i hd)

/-- A running core reports an unknown word at the pc (40_cycle.md R82). -/
theorem cpuStep_unknown {s : State} {r : Reject} (hm : s.mode = .running) (hd : decode s.fetch = .error r) :
    cpuStep s = .next (execUnknown s.fetch s) :=
  (cpuStep_running s hm).trans (runningStep_error s r hd)

/-- A blocked step finds nothing to capture while every key is UP (46_keypad.md R132). -/
theorem blockedStep_of_keys_up {s : State} (hk : ∀ k : KeyCode, s.key k = .up) : blockedStep s = s := by
  obtain ⟨-, hb⟩ | ⟨k, hd, -⟩ := blockedStep_cases s
  · exact hb
  · simp [hk k] at hd

/-- A step whose next event is the CPU's is a CPU step of the state with that event taken (log entry 2). -/
theorem step_of_stepsNext {s : State} (hn : StepsNext s) : step s = cpuStep s.takeInput := by
  rw [step_eq, hn]
  rfl

/-- Settles O43: taking the event moves neither the mode nor the fetched word, so the CPU step decodes the same
instruction. -/
theorem stepRunsTheDecodedInstruction : Obligations.StepRunsTheDecodedInstruction := by
  intro s i hm hd hn
  have hm' : s.takeInput.mode = .running := s.takeInput_mode.trans hm
  have hd' : decode s.takeInput.fetch = .ok i := by rw [s.takeInput_fetch, hd]
  exact ⟨(step_of_stepsNext hn).trans (cpuStep_decoded hm' hd'), s.takeInput_onlyChanges⟩

/-- Settles O45: the report leaves the pc, and the advance after it leaves the report. -/
theorem unknownWordIsReported : Obligations.UnknownWordIsReported := by
  intro s r hm hd
  exact ⟨execUnknown s.fetch s, cpuStep_unknown hm hd, rfl, (s.emit (.diag s.fetch)).advance_pcAdvances,
    execUnknown_onlyChanges s.fetch s⟩

/-- Settles O46: the jump writes the pc that is there, RET finds nothing to pop, the wait finds no key to capture. -/
theorem fixedPointsOfTheStep : Obligations.FixedPointsOfTheStep := by
  intro s
  refine ⟨fun hm hd => ?_, fun hm hd hs => ?_, fun hm hk => ?_⟩
  · calc cpuStep s = .next (s.setPc s.pc) := cpuStep_decoded hm hd
      _ = .next s := by rw [s.setPc_self]
  · calc cpuStep s = execRet s := cpuStep_decoded hm hd
      _ = .next s := execRet_nil hs
  · calc cpuStep s = .next (blockedStep s) := cpuStep_blocked s hm
      _ = .next s := by rw [blockedStep_of_keys_up hk]

end Sys2Proof.Machine

/-! PROOF. Control transfer and skips: the encodings under a mask of the opcode map, the pc after a skip, the return
address and the indexed target as numbers (30_encoding.md R68, 40_cycle.md R81), and the obligations of 41_flow.md. -/

namespace Sys2Proof.Machine

/-! ### Encodings under a mask of the opcode map -/

/-- An instruction whose row masks the family alone, in any of the formats NNN, XNN and XYN (30_encoding.md R68). -/
theorem hasEncoding_family {i : Instr} {op : Nibble} {c : Word} (hop : opField (encode i) = op)
    (hc : formatNNN op 0 = c) : HasEncoding c 0xF000 i := by
  subst hop hc
  exact ⟨and_family (encode i), decode_encode i⟩

/-- An instruction whose row masks the family and the low nibble, of format XYF (30_encoding.md R68). -/
theorem hasEncoding_functionNibble {i : Instr} {op n : Nibble} {x y : Reg} {c : Word}
    (hi : encode i = formatXYN op x y n) (hc : formatXYN op 0 0 n = c) : HasEncoding c 0xF00F i := by
  subst hc
  exact ⟨hi ▸ formatXYN_function op x y n, decode_encode i⟩

/-! ### Targets and the pc as numbers -/

theorem toNat_returnAddress (s : State) : (returnAddress s).toNat = (s.pc.toNat + 2) % 4096 := by
  rw [returnAddress, BitVec.toNat_setWidth_of_le (by decide), Addr.toNat_add_two]

theorem toNat_indexedTarget (nnn : Addr) (s : State) :
    (indexedTarget nnn s).toNat = ((s.reg 0).toNat + nnn.toNat) % 4096 := by
  rw [indexedTarget, BitVec.toNat_add, BitVec.toNat_setWidth_of_le (by decide)]

/-- A skip on a test of a condition moves the pc as the condition says (40_cycle.md R81). -/
theorem State.skip_pcSkips (s : State) {b : Bool} {c : Prop} (h : b = true ↔ c) : PcSkips c s (s.skip b) := by
  cases b with
  | true => exact ⟨fun _ => Addr.toNat_add_four s.pc, fun hc => absurd (h.mp rfl) hc⟩
  | false => exact ⟨fun hc => absurd (h.mpr hc) Bool.false_ne_true, fun _ => Addr.toNat_add_two s.pc⟩

theorem State.skip_onlyChanges (s : State) (b : Bool) : OnlyChanges [.pc] s (s.skip b) := s.setPc_onlyChanges _

/-! ### Jumps, CALL and RET -/

/-- Settles O9: the jump is one write of the pc. -/
theorem jpSetsThePc : Obligations.JpSetsThePc :=
  fun nnn s => ⟨hasEncoding_family (opField_formatNNN 0x1 nnn) rfl, s.setPc nnn, rfl, rfl, s.setPc_onlyChanges nnn⟩

/-- Settles O14: the jump is one write of the pc, and the target counts modulo 4096. -/
theorem jpV0AddsV0 : Obligations.JpV0AddsV0 :=
  fun nnn s => ⟨hasEncoding_family (opField_formatNNN 0xB nnn) rfl, s.setPc (indexedTarget nnn s), rfl,
    toNat_indexedTarget nnn s, s.setPc_onlyChanges _⟩

/-- CALL writes the stack, then the pc: its push never fails (10_state.md R27). -/
theorem execCall_eq (nnn : Addr) (s : State) :
    execCall nnn s = .next ((s.setStack (returnAddress s :: s.stack)).setPc nnn) := by
  rw [execCall, s.push_eq]

/-- Settles O10: the pushed word is the masked return address. -/
theorem callPushesAndJumps : Obligations.CallPushesAndJumps :=
  fun nnn s => ⟨hasEncoding_family (opField_formatNNN 0x2 nnn) rfl,
    (s.setStack (returnAddress s :: s.stack)).setPc nnn, returnAddress s, execCall_eq nnn s, rfl, rfl,
    toNat_returnAddress s, (s.setStack_onlyChanges _).setPc nnn⟩

/-- Settles O11: by whether the pop finds an entry. -/
theorem retPopsOrStays : Obligations.RetPopsOrStays := by
  refine fun s => ⟨⟨rfl, decode_encode .ret⟩, execRet_nil, fun w rest hs => ?_⟩
  exact ⟨(s.setStack rest).setPc (w.setWidth 12), execRet_cons hs, BitVec.toNat_setWidth 12 w, rfl,
    (s.setStack_onlyChanges rest).setPc _⟩

/-! ### Skips -/

/-- Settles O12: each is one skip, on its test of VX against NN. -/
theorem immediateSkips : Obligations.ImmediateSkips := by
  intro x nn s
  refine ⟨hasEncoding_family (opField_formatXNN 0x3 x nn) rfl, hasEncoding_family (opField_formatXNN 0x4 x nn) rfl,
    ⟨s.skip (s.reg x == nn), rfl, s.skip_pcSkips ?_, s.skip_onlyChanges _⟩,
    ⟨s.skip (s.reg x != nn), rfl, s.skip_pcSkips ?_, s.skip_onlyChanges _⟩⟩
  · exact beq_iff_eq
  · exact bne_iff_ne

/-- Settles O13: each is one skip, on its test of VX against VY. -/
theorem registerSkips : Obligations.RegisterSkips := by
  intro x y s
  refine ⟨hasEncoding_functionNibble (n := 0x0) rfl rfl, hasEncoding_functionNibble (n := 0x0) rfl rfl,
    ⟨s.skip (s.reg x == s.reg y), rfl, s.skip_pcSkips ?_, s.skip_onlyChanges _⟩,
    ⟨s.skip (s.reg x != s.reg y), rfl, s.skip_pcSkips ?_, s.skip_onlyChanges _⟩⟩
  · exact beq_iff_eq
  · exact bne_iff_ne

end Sys2Proof.Machine

/-! PROOF. Register loads and arithmetic: what the two common shapes of 42_alu.md leave, the flags as numbers
(R95, R103 to R107), and the obligations of 42_alu.md. -/

namespace Sys2Proof.Machine

/-! ### The two common shapes -/

@[simp] theorem State.loadAndAdvance_reg_same (s : State) (x : Reg) (b : Byte) :
    (s.loadAndAdvance x b).reg x = b := by
  rw [State.loadAndAdvance, State.advance_reg, State.setReg_reg, if_pos rfl]

theorem State.loadAndAdvance_pcAdvances (s : State) (x : Reg) (b : Byte) : PcAdvances s (s.loadAndAdvance x b) :=
  (s.setReg x b).advance_pcAdvances

/-- The flag is written after the result, so it is what VF holds also when X = F (42_alu.md R96). -/
@[simp] theorem State.resultAndFlag_reg_vf (s : State) (x : Reg) (b : Byte) (c : Bool) :
    (s.resultAndFlag x b c).reg Reg.VF = if c then 1 else 0 := by
  rw [State.resultAndFlag, State.advance_reg, State.setFlag_reg, if_pos rfl]

theorem State.resultAndFlag_reg_same (s : State) {x : Reg} (hx : x ≠ Reg.VF) (b : Byte) (c : Bool) :
    (s.resultAndFlag x b c).reg x = b := by
  rw [State.resultAndFlag, State.advance_reg, State.setFlag_reg, if_neg hx, State.setReg_reg, if_pos rfl]

theorem State.resultAndFlag_pcAdvances (s : State) (x : Reg) (b : Byte) (c : Bool) :
    PcAdvances s (s.resultAndFlag x b c) :=
  ((s.setReg x b).setFlag c).advance_pcAdvances

/-- An instruction of the first shape completes, and what holds of the byte it loads holds of VX (42_alu.md R97 to
R102). -/
theorem exists_next_of_load {i : Instr} {s : State} {x : Reg} {b : Byte} (P : Byte → Prop)
    (hi : exec i s = .next (s.loadAndAdvance x b)) (hb : P b) :
    ∃ t : State, exec i s = .next t ∧ P (t.reg x) ∧
      RegsKept [x] s t ∧ PcAdvances s t ∧ OnlyChanges [.pc, .regs] s t :=
  ⟨s.loadAndAdvance x b, hi, by rwa [s.loadAndAdvance_reg_same], s.loadAndAdvance_regsKept x b,
    s.loadAndAdvance_pcAdvances x b, s.loadAndAdvance_onlyChanges x b⟩

/-- An instruction of the second shape completes; what holds of its result holds of VX unless X = F, and VF is its
flag as a number (42_alu.md R96, R103 to R107). -/
theorem exists_next_of_resultAndFlag {i : Instr} {s : State} {x : Reg} {b : Byte} {c : Bool} {n : Nat}
    (P : Byte → Prop) (hi : exec i s = .next (s.resultAndFlag x b c)) (hb : P b) (hc : c.toNat = n) :
    ∃ t : State, exec i s = .next t ∧ (x ≠ Reg.VF → P (t.reg x)) ∧ (t.reg Reg.VF).toNat = n ∧
      RegsKept [x, Reg.VF] s t ∧ PcAdvances s t ∧ OnlyChanges [.pc, .regs] s t := by
  refine ⟨s.resultAndFlag x b c, hi, fun hx => ?_, ?_, s.resultAndFlag_regsKept x b c,
    s.resultAndFlag_pcAdvances x b c, s.resultAndFlag_onlyChanges x b c⟩
  · rwa [s.resultAndFlag_reg_same hx]
  · rw [s.resultAndFlag_reg_vf, ← hc]
    cases c <;> rfl

/-! ### Flags and results as numbers -/

theorem toNat_addCarry (a b : Byte) : (addCarry a b).toNat = if a.toNat + b.toNat > 255 then 1 else 0 :=
  Bool.cond_decide _ 1 0

theorem toNat_notBorrow (a b : Byte) : (notBorrow a b).toNat = if a.toNat ≥ b.toNat then 1 else 0 :=
  Bool.cond_decide _ 1 0

theorem toNat_oldLsb (a : Byte) : (oldLsb a).toNat = a.toNat % 2 := by
  rw [oldLsb, BitVec.getLsbD, Nat.toNat_testBit, pow_zero, Nat.div_one]

/-- The top bit of a byte is all that is left of it above 127. -/
theorem toNat_oldMsb (a : Byte) : (oldMsb a).toNat = a.toNat / 128 := by
  have htop : a.toNat / 128 < 2 := by omega
  rw [oldMsb, BitVec.getLsbD, Nat.toNat_testBit]
  exact Nat.mod_eq_of_lt htop

/-- A byte difference is the integer difference modulo 256 (42_alu.md R94). -/
theorem toNat_sub_emod (a b : Byte) : ((a - b).toNat : Int) = (a.toNat - b.toNat : Int) % 256 := by
  rw [BitVec.toNat_sub]
  omega

theorem toNat_ushiftRight_one (a : Byte) : (a >>> 1).toNat = a.toNat / 2 := by
  rw [BitVec.toNat_ushiftRight, Nat.shiftRight_one]

theorem toNat_shiftLeft_one (a : Byte) : (a <<< 1).toNat = 2 * a.toNat % 256 := by
  rw [BitVec.toNat_shiftLeft, Nat.shiftLeft_eq, pow_one, mul_comm]

/-! ### Loads, ADD_IMM and the bitwise instructions -/

/-- Settles O15: both are loads of VX, with NN and with VY. -/
theorem loadsWriteVx : Obligations.LoadsWriteVx :=
  fun x y nn s => ⟨hasEncoding_family (opField_formatXNN 0x6 x nn) rfl, hasEncoding_functionNibble (n := 0x0) rfl rfl,
    exists_next_of_load (· = nn) rfl rfl, exists_next_of_load (· = s.reg y) rfl rfl⟩

/-- Settles O16: a load of VX with the byte sum. -/
theorem addImmWraps : Obligations.AddImmWraps :=
  fun x nn s => ⟨hasEncoding_family (opField_formatXNN 0x7 x nn) rfl,
    exists_next_of_load (·.toNat = ((s.reg x).toNat + nn.toNat) % 256) rfl (BitVec.toNat_add _ _)⟩

/-- Settles O17: three loads of VX, each with a bitwise result. -/
theorem logicIsBitwise : Obligations.LogicIsBitwise := by
  intro x y s
  refine ⟨hasEncoding_functionNibble (n := 0x1) rfl rfl, hasEncoding_functionNibble (n := 0x2) rfl rfl,
    hasEncoding_functionNibble (n := 0x3) rfl rfl, ?_, ?_, ?_⟩
  · exact exists_next_of_load (fun r => ∀ b : Nat, r.getLsbD b = ((s.reg x).getLsbD b || (s.reg y).getLsbD b)) rfl
      fun _ => BitVec.getLsbD_or
  · exact exists_next_of_load (fun r => ∀ b : Nat, r.getLsbD b = ((s.reg x).getLsbD b && (s.reg y).getLsbD b)) rfl
      fun _ => BitVec.getLsbD_and
  · exact exists_next_of_load (fun r => ∀ b : Nat, r.getLsbD b = ((s.reg x).getLsbD b != (s.reg y).getLsbD b)) rfl
      fun _ => BitVec.getLsbD_xor

/-! ### Arithmetic with a flag -/

/-- Settles O18: the byte sum, then its carry. -/
theorem addRegCarries : Obligations.AddRegCarries :=
  fun x y s => ⟨hasEncoding_functionNibble (n := 0x4) rfl rfl,
    exists_next_of_resultAndFlag (·.toNat = ((s.reg x).toNat + (s.reg y).toNat) % 256) rfl (BitVec.toNat_add _ _)
      (toNat_addCarry _ _)⟩

/-- Settles O19: the byte difference of either order, then whether it does not borrow. -/
theorem subtractionsBorrow : Obligations.SubtractionsBorrow := by
  intro x y s
  refine ⟨hasEncoding_functionNibble (n := 0x5) rfl rfl, hasEncoding_functionNibble (n := 0x7) rfl rfl, ?_, ?_⟩
  · exact exists_next_of_resultAndFlag (fun r => (r.toNat : Int) = ((s.reg x).toNat - (s.reg y).toNat : Int) % 256)
      rfl (toNat_sub_emod _ _) (toNat_notBorrow _ _)
  · exact exists_next_of_resultAndFlag (fun r => (r.toNat : Int) = ((s.reg y).toNat - (s.reg x).toNat : Int) % 256)
      rfl (toNat_sub_emod _ _) (toNat_notBorrow _ _)

/-- This hardware shifts VX and ignores VY (42_alu.md R105, D11). -/
theorem exec_shr_eq (x y : Reg) (s : State) :
    exec (.shr x y) s = .next (s.resultAndFlag x (s.reg x >>> 1) (oldLsb (s.reg x))) := rfl

/-- As SHR, this hardware's SHL shifts VX and ignores VY (42_alu.md R107, D11). -/
theorem exec_shl_eq (x y : Reg) (s : State) :
    exec (.shl x y) s = .next (s.resultAndFlag x (s.reg x <<< 1) (oldMsb (s.reg x))) := rfl

/-- Settles O20: VX shifted by one, then the bit it drops. -/
theorem shiftsDropOneBit : Obligations.ShiftsDropOneBit := by
  intro x y s
  refine ⟨hasEncoding_functionNibble (n := 0x6) rfl rfl, hasEncoding_functionNibble (n := 0xE) rfl rfl, ?_, ?_⟩
  · exact exists_next_of_resultAndFlag (·.toNat = (s.reg x).toNat / 2) (exec_shr_eq x y s)
      (toNat_ushiftRight_one _) (toNat_oldLsb _)
  · exact exists_next_of_resultAndFlag (·.toNat = 2 * (s.reg x).toNat % 256) (exec_shl_eq x y s)
      (toNat_shiftLeft_one _) (toNat_oldMsb _)

/-! ### The free draw -/

/-- Settles O21: the draw is counted, then the masked draw is loaded into VX. -/
theorem rndMasksTheDraw : Obligations.RndMasksTheDraw := by
  intro x nn s
  have hx : (s.countDraw.loadAndAdvance x (s.randomByte &&& nn)).reg x = s.randomByte &&& nn :=
    s.countDraw.loadAndAdvance_reg_same x _
  refine ⟨hasEncoding_family (opField_formatXNN 0xC x nn) rfl, s.countDraw.loadAndAdvance x (s.randomByte &&& nn),
    rfl, hx, fun b hb => ?_, rfl, s.countDraw.loadAndAdvance_regsKept x _, s.countDraw.loadAndAdvance_pcAdvances x _,
    exec_onlyChanges (i := .rnd x nn) rfl⟩
  rw [hx, BitVec.getLsbD_and, hb, Bool.and_false]

end Sys2Proof.Machine

/-! PROOF. Index register and memory transfer: the encodings under the mask of the formats XFF, the advance after a
write that leaves the pc, the index results and the digits as numbers (30_encoding.md R68, 43_index_memory.md R111 to
R113), and the obligations of 43_index_memory.md. -/

namespace Sys2Proof.Machine

/-! ### Encodings and the pc -/

/-- An instruction whose row masks the family and the low byte, of format XFF (30_encoding.md R68). -/
theorem hasEncoding_functionByte {i : Instr} {op : Nibble} {x : Reg} {nn : Byte} {c : Word}
    (hi : encode i = formatXNN op x nn) (hc : formatXNN op 0 nn = c) : HasEncoding c 0xF0FF i := by
  subst hc
  exact ⟨hi ▸ formatXNN_function op x nn, decode_encode i⟩

/-- An advance from a state that still holds the old pc advances the old pc (40_cycle.md R79). -/
theorem pcAdvances_advance {s t : State} (h : t.pc = s.pc) : PcAdvances s t.advance := by
  rw [PcAdvances, ← h]
  exact t.advance_pcAdvances

/-! ### Index results and digits as numbers -/

theorem toNat_indexPlus (b : Byte) (s : State) : (indexPlus b s).toNat = (s.index.toNat + b.toNat) % 4096 := by
  rw [indexPlus, BitVec.toNat_add, BitVec.toNat_setWidth_of_le (by decide)]

theorem toNat_indexOverflow (i : Addr) (b : Byte) :
    (indexOverflow i b).toNat = if i.toNat + b.toNat > 0xFFF then 1 else 0 :=
  Bool.cond_decide _ 1 0

/-- VF after the flag write, as a number (10_state.md R35). -/
theorem State.setFlag_toNat_reg_vf (s : State) (c : Bool) : ((s.setFlag c).reg Reg.VF).toNat = c.toNat := by
  rw [s.setFlag_reg, if_pos rfl]
  cases c <;> rfl

/-- The last glyph ends inside the 12-bit address space, so the glyph address does not wrap. -/
theorem toNat_glyphAddress (b : Byte) : (glyphAddress b).toNat = Params.fontBase + 5 * (b.toNat % 16) := by
  have hlt : Params.fontBase + 5 * (b.toNat % 16) < 2 ^ 12 := by
    rw [Params.fontBase]
    omega
  exact (BitVec.toNat_ofNat _ _).trans (Nat.mod_eq_of_lt hlt)

/-- LD_B's run of three byte writes leaves the hundreds, the tens and the ones; each fits in a byte
(43_index_memory.md R113). -/
theorem State.toNat_readByte_writeBytes_bcdDigits (s : State) (a : Nat) (b : Byte) :
    ((s.writeBytes a (bcdDigits b)).readByte a).toNat = b.toNat / 100 ∧
    ((s.writeBytes a (bcdDigits b)).readByte (a + 1)).toNat = b.toNat / 10 % 10 ∧
    ((s.writeBytes a (bcdDigits b)).readByte (a + 2)).toNat = b.toNat % 10 := by
  have hb := b.isLt
  have hat (k : Nat) (hk : k < 3) : (s.writeBytes a (bcdDigits b)).readByte (a + k) = (bcdDigits b)[k] :=
    s.readByte_writeBytes_at a (bcdDigits b) k hk (by simp [bcdDigits])
  have hdigit {n : Nat} (hn : n < 256) : (BitVec.ofNat 8 n).toNat = n :=
    (BitVec.toNat_ofNat n 8).trans (Nat.mod_eq_of_lt hn)
  exact ⟨(congrArg BitVec.toNat (hat 0 (by decide))).trans (hdigit (by omega)),
    (congrArg BitVec.toNat (hat 1 (by decide))).trans (hdigit (by omega)),
    (congrArg BitVec.toNat (hat 2 (by decide))).trans (hdigit (by omega))⟩

/-! ### LD_I, ADD_I and LD_F -/

/-- Settles O22: one write of I, then the advance. -/
theorem ldISetsI : Obligations.LdISetsI :=
  fun nnn s => ⟨hasEncoding_family (opField_formatNNN 0xA nnn) rfl, (s.setIndex nnn).advance, rfl, rfl,
    pcAdvances_advance rfl, exec_onlyChanges (i := .ldI nnn) rfl⟩

/-- Settles O23: both the sum and the flag are of the old VX, read before VF is written. -/
theorem addIOverflows : Obligations.AddIOverflows :=
  fun x s => ⟨hasEncoding_functionByte (nn := 0x1E) rfl rfl,
    ((s.setIndex (indexPlus (s.reg x) s)).setFlag (indexOverflow s.index (s.reg x))).advance, rfl,
    toNat_indexPlus (s.reg x) s,
    (State.setFlag_toNat_reg_vf _ _).trans (toNat_indexOverflow s.index (s.reg x)),
    exec_regsKept (i := .addI x) rfl, pcAdvances_advance rfl, exec_onlyChanges (i := .addI x) rfl⟩

/-- Settles O24: I is set to the glyph address, which does not wrap. -/
theorem ldFPointsAtTheGlyph : Obligations.LdFPointsAtTheGlyph :=
  fun x s => ⟨hasEncoding_functionByte (nn := 0x29) rfl rfl, (s.setIndex (glyphAddress (s.reg x))).advance, rfl,
    toNat_glyphAddress (s.reg x), pcAdvances_advance rfl, exec_onlyChanges (i := .ldF x) rfl⟩

/-! ### LD_B, LD_MEM_VX and LD_VX_MEM -/

/-- Settles O25: a run of three byte writes from I on, then the advance, which leaves every byte. -/
theorem ldBStoresDigits : Obligations.LdBStoresDigits := by
  intro x s
  obtain ⟨hhundreds, htens, hones⟩ := s.toNat_readByte_writeBytes_bcdDigits s.index.toNat (s.reg x)
  exact ⟨hasEncoding_functionByte (nn := 0x33) rfl rfl, (s.writeBytes s.index.toNat (bcdDigits (s.reg x))).advance,
    rfl, hhundreds, htens, hones, exec_bytesKept (i := .ldB x) rfl, pcAdvances_advance (s.writeBytes_pc _ _),
    exec_onlyChanges (i := .ldB x) rfl⟩

/-- FX55 is a run of byte writes from I on, and this hardware leaves I (43_index_memory.md R116, D12). -/
theorem exec_ldMemVx_eq (x : Reg) (s : State) :
    exec (.ldMemVx x) s = .next (s.writeBytes s.index.toNat ((regsUpTo x).map s.reg)).advance := rfl

/-- FX65 is a run of loads, and this hardware leaves I (43_index_memory.md R116, D12). -/
theorem exec_ldVxMem_eq (x : Reg) (s : State) :
    exec (.ldVxMem x) s = .next (s.loadRegs (regsUpTo x)).advance := rfl

/-- Settles O26: the run of byte writes stores V0 to VX, and the advance leaves every byte. -/
theorem ldMemVxStoresRegisters : Obligations.LdMemVxStoresRegisters := by
  intro x s
  have h := exec_ldMemVx_eq x s
  exact ⟨hasEncoding_functionByte (nn := 0x55) rfl rfl, _, h, fun _ hk => exec_ldMemVx_readByte h hk,
    exec_bytesKept h, pcAdvances_advance (s.writeBytes_pc _ _), exec_onlyChanges h⟩

/-- Settles O27: by whether a register is one of those the run loads. -/
theorem ldVxMemLoadsRegisters : Obligations.LdVxMemLoadsRegisters := by
  intro x s
  have h := exec_ldVxMem_eq x s
  refine ⟨hasEncoding_functionByte (nn := 0x65) rfl rfl, _, h, fun k hk => ?_, fun k hk => ?_,
    pcAdvances_advance (s.loadRegs_pc _), exec_onlyChanges h⟩
  · rw [State.advance_reg, s.loadRegs_reg, if_pos ((mem_regsUpTo x k).mpr hk)]
  · rw [State.advance_reg, s.loadRegs_reg, if_neg fun hm => hk.not_ge ((mem_regsUpTo x k).mp hm)]

end Sys2Proof.Machine

/-! PROOF. The framebuffer and its two instructions: the report of a toggle, which cells of the grid a sprite changes and
when it collides, in terms of its set bits, what DRW leaves (44_display.md R117, R120, R121, R123), and the obligations
of 44_display.md. -/

namespace Sys2Proof.Machine

/-! ### Cells -/

@[simp] theorem Cell.flip_ne (c : Cell) : c.flip ≠ c := by cases c <;> decide

@[simp] theorem Cell.flip_eq_on_iff (c : Cell) : c.flip = .on ↔ c = .off := by cases c <;> decide

theorem Cell.ne_on_iff (c : Cell) : c ≠ .on ↔ c = .off := by cases c <;> decide

/-- An ON cell lies in the grid (60_exceptions.md R145). -/
theorem Frame.in_grid_of_get_on {f : Frame} {x y : Nat} (h : f.get x y = .on) : x < 64 ∧ y < 32 := by
  by_contra hout
  simp [f.get_out x y hout] at h

/-! ### Toggle -/

theorem Frame.get_toggle_same (f : Frame) {x y : Nat} (h : x < 64 ∧ y < 32) :
    (f.toggle x y).1.get x y = (f.get x y).flip := by
  rw [f.get_toggle, if_pos ⟨rfl, rfl, h⟩]

theorem Frame.get_toggle_other (f : Frame) {x y p q : Nat} (h : p ≠ x ∨ q ≠ y) :
    (f.toggle x y).1.get p q = f.get p q := by
  rw [f.get_toggle, if_neg (by omega)]

theorem Frame.toggle_out (f : Frame) {x y : Nat} (h : ¬ (x < 64 ∧ y < 32)) : f.toggle x y = (f, false) := if_neg h

/-- When a toggle reports no cell turned off: exactly when the cell was OFF. -/
theorem Frame.toggle_miss (f : Frame) (x y : Nat) : (f.toggle x y).2 = false ↔ f.get x y = .off := by
  rw [← Bool.not_eq_true, f.toggle_hit, ← ne_eq, Cell.ne_on_iff]

/-- 44_display.md R118, inside the grid or not. -/
theorem Frame.toggle_toggle (f : Frame) (x y : Nat) : ((f.toggle x y).1.toggle x y).1 = f := by
  refine Frame.ext_get fun p q => ?_
  by_cases h : p = x ∧ q = y ∧ x < 64 ∧ y < 32
  · obtain ⟨rfl, rfl, hin⟩ := h
    rw [Frame.get_toggle_same _ hin, Frame.get_toggle_same _ hin, Cell.flip_flip]
  · rw [Frame.get_toggle, if_neg h, Frame.get_toggle, if_neg h]

/-- Settles O29: inside the grid by the cell a toggle leaves and its report, outside because nothing is there. -/
theorem toggleFlipsOneCell : Obligations.ToggleFlipsOneCell := by
  refine fun f s x y => ⟨fun hin => ⟨fun hoff => ?_, fun hon => ?_, fun p q => f.get_toggle_other⟩, fun h => ?_⟩
  · exact ⟨by rw [f.get_toggle_same hin, hoff, Cell.flip], (f.toggle_miss x y).mpr hoff⟩
  · exact ⟨by rw [f.get_toggle_same hin, hon, Cell.flip], (f.toggle_hit x y).mpr hon⟩
  · have hout : ¬ (x < 64 ∧ y < 32) := by omega
    exact ⟨f.toggle_out hout, f.get_out x y hout, s.frame.get_out x y hout⟩

/-- Settles O30: the second toggle meets the other value of the cell. -/
theorem toggleTwiceRestores : Obligations.ToggleTwiceRestores := by
  refine fun f x y hx hy => ⟨f.toggle_toggle x y, fun hoff => ?_, fun hon => ?_⟩
  · exact ⟨(f.toggle_miss x y).mpr hoff, by rw [Frame.toggle_hit, f.get_toggle_same ⟨hx, hy⟩, hoff, Cell.flip]⟩
  · exact ⟨(f.toggle_hit x y).mpr hon, by rw [Frame.toggle_miss, f.get_toggle_same ⟨hx, hy⟩, hon, Cell.flip]⟩

/-! ### DrawSprite -/

section
variable (f : Frame) (rows : List Byte) (x y : Nat)

/-- What drawing a sprite leaves in every cell (44_display.md R120). -/
theorem Frame.get_drawSprite (p q : Nat) : (f.drawSprite rows x y).1.get p q =
    if (p, q) ∈ spriteCells rows x y ∧ p < 64 ∧ q < 32 then (f.get p q).flip else f.get p q :=
  f.get_toggleAll _ (nodup_spriteCells rows x y) p q

/-- Drawing a sprite changes exactly the cells of the grid that the sprite names (44_display.md R120, R121). -/
theorem Frame.get_drawSprite_ne_iff (p q : Nat) : (f.drawSprite rows x y).1.get p q ≠ f.get p q ↔
    (p, q) ∈ spriteCells rows x y ∧ p < 64 ∧ q < 32 := by
  rw [f.get_drawSprite]
  split
  · next h => exact iff_of_true (f.get p q).flip_ne h
  · next h => exact iff_of_false (fun hne => hne rfl) h

/-- When drawing a sprite collides: exactly when it names an ON cell, which then lies in the grid. -/
theorem Frame.drawSprite_hit : (f.drawSprite rows x y).2 = true ↔
    ∃ p q, ((p, q) ∈ spriteCells rows x y ∧ p < 64 ∧ q < 32) ∧ f.get p q = .on := by
  rw [Frame.drawSprite, f.toggleAll_hit _ (nodup_spriteCells rows x y), Prod.exists]
  refine exists_congr fun p => exists_congr fun q => and_congr_left fun hon => ?_
  exact (and_iff_left (Frame.in_grid_of_get_on hon)).symm

/-- Drawing a sprite collides exactly when it turns a cell off (44_display.md R120). -/
theorem Frame.drawSprite_hit_iff_turns_off : (f.drawSprite rows x y).2 = true ↔
    ∃ p q, f.get p q = .on ∧ (f.drawSprite rows x y).1.get p q = .off := by
  rw [f.drawSprite_hit]
  refine exists_congr fun p => exists_congr fun q => and_comm.trans (and_congr_right fun hon => ?_)
  rw [← f.get_drawSprite_ne_iff, hon, Cell.ne_on_iff]

/-- 44_display.md R123: drawing is its own inverse. -/
theorem Frame.drawSprite_drawSprite : ((f.drawSprite rows x y).1.drawSprite rows x y).1 = f := by
  refine Frame.ext_get fun p q => ?_
  by_cases h : (p, q) ∈ spriteCells rows x y ∧ p < 64 ∧ q < 32
  · rw [Frame.get_drawSprite, if_pos h, Frame.get_drawSprite, if_pos h, Cell.flip_flip]
  · rw [Frame.get_drawSprite, if_neg h, Frame.get_drawSprite, if_neg h]

/-- The second draw meets the other value of each cell of the grid that the sprite names. -/
theorem Frame.drawSprite_drawSprite_hit : ((f.drawSprite rows x y).1.drawSprite rows x y).2 = true ↔
    ∃ p q, ((p, q) ∈ spriteCells rows x y ∧ p < 64 ∧ q < 32) ∧ f.get p q = .off := by
  rw [Frame.drawSprite_hit]
  refine exists_congr fun p => exists_congr fun q => and_congr_right fun h => ?_
  rw [f.get_drawSprite, if_pos h, Cell.flip_eq_on_iff]

/-- A cell of the grid that a sprite names and that has a property, by the line and the column of its set bit. -/
theorem exists_spriteCell_iff (P : Nat → Nat → Prop) :
    (∃ p q, ((p, q) ∈ spriteCells rows x y ∧ p < 64 ∧ q < 32) ∧ P p q) ↔
      ∃ line col : Nat, line < rows.length ∧ col < 8 ∧ x + col < 64 ∧ y + line < 32 ∧
        spriteBit rows col line = true ∧ P (x + col) (y + line) := by
  simp only [mem_spriteCells]
  constructor
  · rintro ⟨_, _, ⟨⟨line, col, hl, hc, hb, rfl, rfl⟩, hx, hy⟩, hP⟩
    exact ⟨line, col, hl, hc, hx, hy, hb, hP⟩
  · rintro ⟨line, col, hl, hc, hx, hy, hb, hP⟩
    exact ⟨x + col, y + line, ⟨⟨line, col, hl, hc, hb, rfl, rfl⟩, hx, hy⟩, hP⟩

end

/-- Settles O31: a set bit names its cell, a cell that no set bit names is kept, and a collision is a named ON cell. -/
theorem drawSpriteFlipsItsBits : Obligations.DrawSpriteFlipsItsBits := by
  refine fun f rows x y => ⟨fun line col hl hc hx hy hb => ?_, fun p q hno => ?_, ?_⟩
  · have hflip : (f.drawSprite rows x y).1.get (x + col) (y + line) = (f.get (x + col) (y + line)).flip := by
      rw [f.get_drawSprite, if_pos ⟨(mem_spriteCells ..).mpr ⟨line, col, hl, hc, hb, rfl, rfl⟩, hx, hy⟩]
    exact ⟨fun hoff => by rw [hflip, hoff, Cell.flip], fun hon => by rw [hflip, hon, Cell.flip]⟩
  · rw [f.get_drawSprite, if_neg]
    rintro ⟨hm, -⟩
    obtain ⟨line, col, hl, hc, hb, hpq⟩ := (mem_spriteCells ..).mp hm
    exact hno line col hl hc hb hpq
  · exact (f.drawSprite_hit rows x y).trans (exists_spriteCell_iff rows x y (f.get · · = .on))

/-- Settles O32: a second draw flips every cell back, so it turns off the cells that were OFF at first. -/
theorem drawTwiceRestores : Obligations.DrawTwiceRestores :=
  fun f rows x y => ⟨f.drawSprite_drawSprite rows x y,
    (f.drawSprite_drawSprite_hit rows x y).trans (exists_spriteCell_iff rows x y (f.get · · = .off))⟩

/-! ### CLS and DRW -/

/-- Settles O33: the cleared frame is written, then the flag, then the pc. -/
theorem clsClearsTheFrame : Obligations.ClsClearsTheFrame :=
  fun s => ⟨⟨rfl, decode_encode .cls⟩, (s.clearFrame.setFrameUpdated true).advance, rfl, s.clearFrame_frameRead, rfl,
    pcAdvances_advance rfl, exec_onlyChanges (i := .cls) rfl⟩

/-- The cells a sprite in memory names: its lines are the bytes from `a` on, each address masked on its own
(20_memory.md R55). -/
theorem mem_spriteCells_readBytes (s : State) (a n x y p q : Nat) :
    (p, q) ∈ spriteCells (s.readBytes a n) x y ↔ ∃ line col : Nat, line < n ∧ col < 8 ∧
      p = x + col ∧ q = y + line ∧ (s.readByte (a + line)).getLsbD (7 - col) = true := by
  have hbit (line col : Nat) (hl : line < n) :
      spriteBit (s.readBytes a n) col line = (s.readByte (a + line)).getLsbD (7 - col) := by
    rw [spriteBit, List.getD_eq_getElem _ _ (by simpa using hl), s.getElem_readBytes]
  rw [mem_spriteCells, s.length_readBytes]
  refine exists_congr fun line => exists_congr fun col => and_congr_right fun hl => and_congr_right fun _ => ?_
  rw [hbit line col hl, and_comm, and_assoc]

/-- What DRW leaves: the frame drawn on, its collision in VF, the frame flagged, the pc advanced (44_display.md R123). -/
theorem exec_drw_eq (x y : Reg) (n : Nibble) (s : State) : exec (.drw x y n) s =
    .next (((s.setFrame (drawResult x y n s).1).setFlag (drawResult x y n s).2).setFrameUpdated true).advance := rfl

/-- DRW changes exactly the cells of the grid under the set bits of the bytes at I (44_display.md R123). -/
theorem get_drawResult_ne_iff (x y : Reg) (n : Nibble) (s : State) (p q : Nat) :
    (drawResult x y n s).1.get p q ≠ s.frameRead p q ↔
      p < 64 ∧ q < 32 ∧ ∃ line col : Nat, line < n.toNat ∧ col < 8 ∧
        p = (s.reg x).toNat + col ∧ q = (s.reg y).toNat + line ∧
        (s.readByte (s.index.toNat + line)).getLsbD (7 - col) = true := by
  rw [drawResult, State.frameRead, Frame.get_drawSprite_ne_iff, mem_spriteCells_readBytes, and_comm, and_assoc]

/-- Settles O34: the frame is the sprite drawn at the old VX and VY, and VF is the draw's collision. -/
theorem drwDrawsAndCollides : Obligations.DrwDrawsAndCollides := by
  intro x y n s
  have h := exec_drw_eq x y n s
  refine ⟨hasEncoding_family (opField_formatXYN 0xD n x y) rfl, _, h, get_drawResult_ne_iff x y n s, ?_, ?_, rfl,
    exec_regsKept h, pcAdvances_advance rfl, exec_onlyChanges h⟩
  · rw [State.advance_reg, State.setFrameUpdated_reg, State.setFlag_toNat_reg_vf]
    cases (drawResult x y n s).2 <;> decide
  · rw [State.advance_reg, State.setFrameUpdated_reg, State.setFlag_toNat_reg_vf, Bool.toNat_eq_one]
    exact s.frame.drawSprite_hit_iff_turns_off ..

end Sys2Proof.Machine

/-! PROOF. The timer instructions: what a timer write leaves in its count and in the trace (45_timers.md R124), and the
obligations of 45_timers.md. -/

namespace Sys2Proof.Machine

/-! ### What a timer write leaves -/

/-- A timer write loads a value above 0, whether or not the timer runs, and keeps the count on 0 (45_timers.md R124,
D17). -/
theorem State.setTimer_count_same (s : State) (t : Timer) (n : Byte) :
    (s.setTimer t n).count t = if n = 0 then s.count t else n := by
  split
  · next h => rw [h, s.setTimer_zero]
  · next h =>
    rw [s.setTimer_pos t n h]
    split
    · rw [State.emitEdge_count, State.setCount_count, if_pos rfl]
    · rw [State.setCount_count, if_pos rfl]

/-- A sound timer write emits `start()` exactly when it takes ST from 0 to above 0 (45_timers.md R124, D17, D29). -/
theorem State.setTimer_sound_trace (s : State) (n : Byte) :
    (s.setTimer .sound n).trace = if n ≠ 0 ∧ s.st = 0 then .start :: s.trace else s.trace := by
  by_cases hn : n = 0
  · rw [if_neg fun h => h.1 hn, hn, s.setTimer_zero]
  · rw [s.setTimer_pos .sound n hn, State.count]
    by_cases hst : s.st = 0
    · rw [if_pos hst, if_pos ⟨hn, hst⟩]; rfl
    · rw [if_neg hst, if_neg fun h => hst h.2]; rfl

/-! ### LD_VX_DT, LD_DT_VX and LD_ST_VX -/

/-- Settles O35: a load of VX with DT. -/
theorem ldVxDtReadsTheDelay : Obligations.LdVxDtReadsTheDelay :=
  fun _ s => ⟨hasEncoding_functionByte (nn := 0x07) rfl rfl, exists_next_of_load (· = s.dt) rfl rfl⟩

/-- Settles O36: a delay timer write, which has no audio edge, then the advance. -/
theorem ldDtVxArmsTheDelay : Obligations.LdDtVxArmsTheDelay :=
  fun x s => ⟨hasEncoding_functionByte (nn := 0x15) rfl rfl, (s.setTimer .delay (s.reg x)).advance, rfl,
    s.setTimer_count_same .delay (s.reg x), pcAdvances_advance (s.setTimer_pc _ _),
    exec_onlyChanges (i := .ldDtVx x) rfl⟩

/-- Settles O37: a sound timer write with its audio edge, then the advance. -/
theorem ldStVxArmsTheSound : Obligations.LdStVxArmsTheSound :=
  fun x s => ⟨hasEncoding_functionByte (nn := 0x18) rfl rfl, (s.setTimer .sound (s.reg x)).advance, rfl,
    s.setTimer_count_same .sound (s.reg x), s.setTimer_sound_trace (s.reg x), pcAdvances_advance (s.setTimer_pc _ _),
    exec_onlyChanges (i := .ldStVx x) rfl⟩

end Sys2Proof.Machine

/-! PROOF. The keypad instructions and the blocked step: which key a blocked step captures and what the capture leaves
(46_keypad.md R132, R133), and the obligations of 46_keypad.md. -/

namespace Sys2Proof.Machine

/-! ### The capture of a key -/

/-- A blocked step captures the lowest DOWN key (46_keypad.md R133, D18). -/
theorem blockedStep_of_lowest_down {s : State} {k : KeyCode} (hd : s.key k = .down)
    (hl : ∀ j : KeyCode, s.key j = .down → k ≤ j) :
    blockedStep s = ((s.setReg s.waitReg (BitVec.ofNat 8 k.val)).setMode .running).advance := by
  obtain ⟨hup, -⟩ | ⟨j, hj, hlj, hb⟩ := blockedStep_cases s
  · simp [hup k] at hd
  · obtain rfl : k = j := le_antisymm (hl j hj) (hlj k hd)
    exact hb

/-- Every key code fits in a byte (10_state.md R30). -/
theorem toNat_ofNat_keyCode (k : KeyCode) : (BitVec.ofNat 8 k.val).toNat = k.val :=
  (BitVec.toNat_ofNat k.val 8).trans (Nat.mod_eq_of_lt (k.isLt.trans (by decide)))

theorem State.setReg_regsKept (s : State) (r : Reg) (b : Byte) : RegsKept [r] s (s.setReg r b) := by
  intro q hq
  rw [s.setReg_reg, if_neg (List.ne_of_not_mem_cons hq)]

/-! ### SKP and SKNP -/

/-- Settles O39: each is one skip, on the key test or its negation; a VX above 0xF is the code of no key. -/
theorem keySkips : Obligations.KeySkips := by
  intro x s
  have hkey := s.keyDown_iff (s.reg x)
  refine ⟨hasEncoding_functionByte (nn := 0x9E) rfl rfl, hasEncoding_functionByte (nn := 0xA1) rfl rfl,
    ⟨s.skip (s.keyDown (s.reg x)), rfl, s.skip_pcSkips hkey, s.skip_onlyChanges _⟩,
    ⟨s.skip (!s.keyDown (s.reg x)), rfl, s.skip_pcSkips ?_, s.skip_onlyChanges _⟩⟩
  rw [Bool.not_eq_true', ← Bool.not_eq_true, hkey]

/-! ### LD_VX_K and the step that completes it -/

/-- Settles O40: the keys are cleared, X is latched and the mode is set; the pc is not written. -/
theorem awaitKeyBlocks : Obligations.AwaitKeyBlocks :=
  fun x s => ⟨hasEncoding_functionByte (nn := 0x0A) rfl rfl,
    (s.clearKeys.setWaitReg x).setMode .blockedForInput, rfl, s.clearKeys_key, rfl, rfl,
    exec_onlyChanges (i := .ldVxK x) rfl⟩

/-- Settles O41: with every key UP there is nothing to capture; otherwise the capture is one register write, then the
mode, then the advance. -/
theorem blockedStepCapturesAKey : Obligations.BlockedStepCapturesAKey := by
  refine fun s hm => ⟨fun hup => ?_, fun k hd hl => ?_⟩
  · rw [cpuStep_blocked s hm, blockedStep_of_keys_up hup]
  · have hb := blockedStep_of_lowest_down hd hl
    refine ⟨_, (cpuStep_blocked s hm).trans (congrArg _ hb), ?_, rfl, s.setReg_regsKept _ _,
      pcAdvances_advance rfl, ?_⟩
    · rw [State.advance_reg, State.setMode_reg, s.setReg_reg, if_pos rfl, toNat_ofNat_keyCode]
    · exact (((s.setReg_onlyChanges _ _).trans (State.setMode_onlyChanges _ _)).setPc _).mono (by decide)

end Sys2Proof.Machine

/-! PROOF. The host's events and the step as a whole: what a tick leaves in its count and in the trace, the audio
protocol under a start, a stop and everything else, that every step completes (60_exceptions.md R134, R142 to R149), and
the obligations of 60_exceptions.md. -/

namespace Sys2Proof.Machine

/-! ### What a tick leaves -/

/-- A tick takes 1 off its count, and keeps it on 0 (60_exceptions.md R147). -/
theorem State.toNat_tick_count_same (s : State) (t : Timer) :
    ((s.tick t).count t).toNat = (s.count t).toNat - 1 := by
  by_cases h0 : s.count t = 0
  · rw [s.tick_zero t h0, h0]; rfl
  rw [s.tick_pos t h0]
  split
  · next h1 => rw [State.emitEdge_count, State.setCount_count, if_pos rfl, h1]; rfl
  · rw [State.setCount_count, if_pos rfl]
    bv_omega

/-- A sound tick emits `stop()` exactly when it takes ST from 1 to 0 (60_exceptions.md R147, R149). -/
theorem State.tick_sound_trace (s : State) :
    (s.tick .sound).trace = if s.st = 1 then .stop :: s.trace else s.trace := by
  by_cases h0 : s.st = 0
  · rw [s.tick_zero .sound h0, h0]; rfl
  · rw [s.tick_pos .sound h0, State.count]
    split <;> rfl

theorem State.tick_delay_onlyChanges (s : State) : OnlyChanges [.dt] s (s.tick .delay) := by
  intro p hp; cases p <;> simp_all [SamePart]

theorem State.tick_sound_onlyChanges (s : State) : OnlyChanges [.st, .trace] s (s.tick .sound) := by
  intro p hp; cases p <;> simp_all [SamePart]

/-- Settles O38: the count and the edge of a tick, each timer in its own parts. -/
theorem ticksCountDown : Obligations.TicksCountDown := by
  intro s
  refine ⟨⟨s.tick .delay, rfl, s.toNat_tick_count_same .delay, s.tick_delay_onlyChanges⟩,
    s.tick .sound, rfl, s.toNat_tick_count_same .sound, ?_, s.tick_sound_onlyChanges⟩
  have hone : s.st.toNat = 1 ↔ s.st = 1 := BitVec.toNat_inj (y := 1)
  simp only [s.tick_sound_trace, hone]

/-! ### Press, Release and Ack -/

theorem State.setKey_key_same (s : State) (k : KeyCode) (c : KeyState) : (s.setKey k c).key k = c := by
  rw [s.setKey_key, if_pos rfl]

theorem State.setKey_key_other (s : State) {j k : KeyCode} (hj : j ≠ k) (c : KeyState) :
    (s.setKey k c).key j = s.key j := by
  rw [s.setKey_key, if_neg hj]

/-- Settles O42: two writes of one key, and one of `frame_updated`. -/
theorem keyAndAckEvents : Obligations.KeyAndAckEvents :=
  fun k s => ⟨
    ⟨s.setKey k .down, rfl, s.setKey_key_same k _, fun _ hj => s.setKey_key_other hj _, s.setKey_onlyChanges k _⟩,
    ⟨s.setKey k .up, rfl, s.setKey_key_same k _, fun _ hj => s.setKey_key_other hj _, s.setKey_onlyChanges k _⟩,
    s.setFrameUpdated false, rfl, rfl, s.setFrameUpdated_onlyChanges _⟩

/-! ### The next event, and that the step completes -/

/-- Settles O44: by where the next event comes from. -/
theorem stepAppliesTheNextEvent : Obligations.StepAppliesTheNextEvent := by
  refine fun s => ⟨step_eq s, s.takeInput_onlyChanges, fun e es hs => ?_, input_of_steps s, fun hs he => ?_⟩
  · obtain ⟨hn, ht⟩ := input_of_cons s e es hs
    exact ⟨hn, by rw [ht, State.setSchedule_schedule], by rw [ht, State.setSchedule_inputs]⟩
  · obtain ⟨hn, ht⟩ := input_of_any s hs he
    exact ⟨hn, by rw [ht, State.countInput_schedule, hs], by rw [ht, State.countInput_inputs]⟩

/-- A CPU step completes: in RUNNING every word that decodes runs and every other is reported; blocked, it captures a
key or waits (40_cycle.md R84). -/
theorem cpuStep_completes (s : State) : ∃ t : State, cpuStep s = .next t := by
  cases hm : s.mode with
  | blockedForInput => exact ⟨_, cpuStep_blocked s hm⟩
  | running =>
    cases hd : decode s.fetch with
    | error r => exact ⟨_, cpuStep_unknown hm hd⟩
    | ok i =>
      rw [cpuStep_decoded hm hd]
      exact exec_completes i s

theorem applyEvent_completes (e : Event) (s : State) : ∃ t : State, applyEvent e s = .next t := by
  cases e with
  | step => exact cpuStep_completes s
  | delayTick | soundTick | press | release | ack => exact ⟨_, rfl⟩

/-- Settles O48: a step is one event, and each event completes because each instruction does. -/
theorem everyStepCompletes : Obligations.EveryStepCompletes :=
  ⟨exec_completes, fun s => applyEvent_completes s.nextInput s.takeInput⟩

/-! ### The audio protocol -/

theorem State.audible_eq_false_iff (s : State) : s.audible = false ↔ s.st = 0 := bne_eq_false_iff_eq

theorem State.audible_eq_true_iff (s : State) : s.audible = true ↔ s.st ≠ 0 := bne_iff_ne

section AudioProtocol

variable {s t : State}

/-- Without an audio event the protocol is kept by whatever leaves ST on the same side of 0. -/
theorem AudioAgrees.of_no_edge (h : AudioAgrees s) (htr : t.trace = s.trace) (hst : t.st = 0 ↔ s.st = 0) :
    AudioAgrees t := by
  have haud : t.audible = s.audible := by
    rw [Bool.eq_iff_iff, t.audible_eq_true_iff, s.audible_eq_true_iff, Ne, hst]
  rw [AudioAgrees, htr, haud]
  exact h

/-- A `start()` at ST = 0 that leaves ST above 0 keeps the protocol: the tone was off. -/
theorem AudioAgrees.of_start (h : AudioAgrees s) (htr : t.trace = .start :: s.trace) (hs : s.st = 0) (ht : t.st ≠ 0) :
    AudioAgrees t := by
  rw [AudioAgrees, s.audible_eq_false_iff.mpr hs] at h
  rw [AudioAgrees, htr, t.audible_eq_true_iff.mpr ht, toneAfter, if_pos h]

/-- A `stop()` at ST above 0 that leaves ST at 0 keeps the protocol: the tone was on. -/
theorem AudioAgrees.of_stop (h : AudioAgrees s) (htr : t.trace = .stop :: s.trace) (hs : s.st ≠ 0) (ht : t.st = 0) :
    AudioAgrees t := by
  rw [AudioAgrees, s.audible_eq_true_iff.mpr hs] at h
  rw [AudioAgrees, htr, t.audible_eq_false_iff.mpr ht, toneAfter, if_pos h]

/-- The protocol looks at ST and the trace alone. -/
theorem AudioAgrees.of_onlyChanges (h : AudioAgrees s) {ps : List Part} (hc : OnlyChanges ps s t) (htr : .trace ∉ ps)
    (hst : .st ∉ ps) : AudioAgrees t :=
  h.of_no_edge (hc .trace htr) (Eq.congr_left (hc .st hst))

/-- A `Diag` is no audio event (60_exceptions.md R139). -/
theorem AudioAgrees.execUnknown (h : AudioAgrees s) (w : Word) : AudioAgrees (execUnknown w s) := h

/-- A sound timer write starts the tone from 0, re-arms it above 0 with no edge, or does nothing (45_timers.md R124,
D17, D29). -/
theorem AudioAgrees.setTimer_sound (h : AudioAgrees s) (n : Byte) : AudioAgrees (s.setTimer .sound n) := by
  by_cases hn : n = 0
  · rwa [hn, s.setTimer_zero]
  rw [s.setTimer_pos .sound n hn]
  by_cases hst : s.st = 0
  · rw [if_pos (show s.count .sound = 0 from hst)]
    exact h.of_start rfl hst hn
  · rw [if_neg (show s.count .sound ≠ 0 from hst)]
    exact h.of_no_edge rfl (iff_of_false hn hst)

/-- A sound tick stops the tone at 1, counts down above 1 with no edge, or does nothing (60_exceptions.md R147). -/
theorem AudioAgrees.tick_sound (h : AudioAgrees s) : AudioAgrees (s.tick .sound) := by
  by_cases h0 : s.st = 0
  · rwa [s.tick_zero .sound h0]
  rw [s.tick_pos .sound h0]
  by_cases h1 : s.st = 1
  · rw [if_pos (show s.count .sound = 1 from h1)]
    exact h.of_stop rfl h0 rfl
  · rw [if_neg (show s.count .sound ≠ 1 from h1)]
    exact h.of_no_edge rfl (iff_of_false (sub_ne_zero.mpr h1) h0)

/-- Of the instructions FX18 alone writes ST or the trace. -/
theorem AudioAgrees.exec {i : Instr} (h : AudioAgrees s) (he : exec i s = .next t) : AudioAgrees t := by
  cases i with
  | ldStVx x => cases he; exact h.setTimer_sound (s.reg x)
  | _ => exact h.of_onlyChanges (exec_onlyChanges he) (by simp [writtenParts]) (by simp [writtenParts])

theorem AudioAgrees.blockedStep (h : AudioAgrees s) : AudioAgrees (blockedStep s) := by
  obtain ⟨-, hb⟩ | ⟨k, -, -, hb⟩ := blockedStep_cases s
  · rwa [hb]
  · rw [hb]
    exact h

theorem AudioAgrees.cpuMove (h : AudioAgrees s) (hc : CpuMove s t) : AudioAgrees t := by
  obtain ⟨-, i, -, he⟩ | ⟨-, -, rfl⟩ | ⟨-, rfl⟩ := hc
  · exact h.exec he
  · exact h.execUnknown s.fetch
  · exact h.blockedStep

theorem AudioAgrees.hostMove (h : AudioAgrees s) (hh : HostMove s t) : AudioAgrees t := by
  obtain rfl | rfl | ⟨k, c, rfl⟩ | rfl := hh
  · exact h.of_onlyChanges s.tick_delay_onlyChanges (by decide) (by decide)
  · exact h.tick_sound
  · exact h.of_onlyChanges (s.setKey_onlyChanges k c) (by decide) (by decide)
  · exact h.of_onlyChanges (s.setFrameUpdated_onlyChanges false) (by decide) (by decide)

end AudioProtocol

/-- Settles O56: taking the event touches neither ST nor the trace, and what follows is a CPU step or one host event. -/
theorem stepKeepsTheAudioProtocol : Obligations.StepKeepsTheAudioProtocol := by
  intro s t hs h
  have hs' : AudioAgrees s.takeInput := hs.of_onlyChanges s.takeInput_onlyChanges (by decide) (by decide)
  obtain ⟨-, hc⟩ | hh := step_cases h
  · exact hs'.cpuMove hc
  · exact hs'.hostMove hh

end Sys2Proof.Machine

/-! PROOF. Which steps raise the delay timer (70_reset_and_hazards.md R161), what construction with a program gives
(R155, R156), and the obligations of 70_reset_and_hazards.md. -/

namespace Sys2Proof.Machine

/-! ### Which steps raise DT -/

/-- No event of the host but `Step` raises DT: a delay tick counts down and the others leave it (60_exceptions.md R142,
R147). -/
theorem HostMove.dt_le {s t : State} (h : HostMove s t) : t.dt.toNat ≤ s.dt.toNat := by
  obtain rfl | rfl | ⟨k, c, rfl⟩ | rfl := h
  · exact (s.toNat_tick_count_same .delay).trans_le (Nat.sub_le _ 1)
  · rw [s.tick_sound_dt]
  · rw [s.setKey_dt]
  · rw [s.setFrameUpdated_dt]

theorem blockedStep_dt (s : State) : (blockedStep s).dt = s.dt := by
  obtain ⟨-, hb⟩ | ⟨k, -, -, hb⟩ := blockedStep_cases s
  · rw [hb]
  · rw [hb, State.advance_dt, State.setMode_dt, State.setReg_dt]

/-- An instruction that changes DT is an FX15, and it loads VX (45_timers.md R124, R126). -/
theorem exec_changes_dt {i : Instr} {s t : State} (h : exec i s = .next t) (hc : t.dt ≠ s.dt) :
    ∃ x : Reg, i = .ldDtVx x ∧ t.dt = s.reg x := by
  cases i with
  | ldDtVx x =>
    cases h
    have hdt : (s.setTimer .delay (s.reg x)).dt = if s.reg x = 0 then s.dt else s.reg x :=
      s.setTimer_count_same .delay (s.reg x)
    rw [State.advance_dt, hdt] at hc ⊢
    exact ⟨x, rfl, if_neg fun h0 => hc (if_pos h0)⟩
  | _ => exact absurd (exec_onlyChanges h .dt (by simp [writtenParts])) hc

/-- A CPU step that changes DT runs an FX15, and it loads VX. -/
theorem CpuMove.changes_dt {s t : State} (h : CpuMove s t) (hc : t.dt ≠ s.dt) :
    s.mode = .running ∧ ∃ x : Reg, decode s.fetch = .ok (.ldDtVx x) ∧ t.dt = s.reg x := by
  obtain ⟨hm, i, hd, he⟩ | ⟨-, -, rfl⟩ | ⟨-, rfl⟩ := h
  · obtain ⟨x, rfl, hx⟩ := exec_changes_dt he hc
    exact ⟨hm, x, hd, hx⟩
  · exact absurd (execUnknown_onlyChanges s.fetch s .dt (by decide)) hc
  · exact absurd (blockedStep_dt s) hc

/-- Settles O52: a host event does not raise DT, and a CPU step that changes it runs an FX15. -/
theorem delayRisesOnlyByAWrite : Obligations.DelayRisesOnlyByAWrite := by
  intro s t h hlt
  rw [← s.takeInput_dt] at hlt
  obtain ⟨hn, hc⟩ | hh := step_cases h
  · obtain ⟨hm, x, hd, hx⟩ := hc.changes_dt fun he => hlt.ne (congrArg BitVec.toNat he.symm)
    rw [s.takeInput_mode] at hm
    rw [s.takeInput_fetch] at hd
    rw [s.takeInput_reg] at hx
    exact ⟨hn, hm, x, hd, hx⟩
  · exact absurd hh.dt_le hlt.not_ge

/-! ### Construction with a program -/

/-- A program fits up to 0x1000 - 0x200 bytes (70_reset_and_hazards.md R156, D1). -/
theorem programFits_iff (n : Nat) : programFits n = true ↔ n ≤ 3584 := by
  rw [programFits, decide_eq_true_iff, Params.progStart, Config.memSize]
  omega

/-- Construction stores a program that fits from 0x200 on, and refuses any other (70_reset_and_hazards.md R155,
R156). -/
theorem construct_some (p : List Byte) : construct (some p) =
    if p.length ≤ 3584 then .next (State.reset.writeBytes 0x200 p) else .refused .loadFailure := by
  simp only [construct, programFits_iff, Params.progStart]

/-- Settles O60: the program is one run of byte writes over the reset state, too short to wrap onto itself. -/
theorem constructionLoadsTheProgram : Obligations.ConstructionLoadsTheProgram := by
  refine ⟨fun p hp => ?_, fun p hp => ?_, rfl⟩
  · refine ⟨State.reset.writeBytes 0x200 p, (construct_some p).trans (if_pos hp), fun k hk => ?_,
      State.reset.writeBytes_bytesKept 0x200 p, State.reset.writeBytes_onlyChanges 0x200 p⟩
    rw [State.readByte_writeBytes_at _ _ _ _ hk (by omega), List.getD_eq_getElem _ _ hk]
  · exact (construct_some p).trans (if_neg (by omega))

/-- A core that construction gives is the reset state with the program's bytes written. -/
theorem eq_writeBytes_of_construct {p : List Byte} {s : State} (h : construct (some p) = .next s) :
    s = State.reset.writeBytes 0x200 p := by
  rw [construct_some] at h
  split at h
  · injection h with h
    exact h.symm
  · cases h

theorem meetsInvariants_reset : MeetsInvariants State.reset :=
  ⟨State.wf_reset, rfl, nofun, nofun⟩

/-- Loading bytes into a running core keeps the invariants: only the first looks at memory while no FX0A is awaited. -/
theorem MeetsInvariants.writeBytes {s : State} (h : MeetsInvariants s) (hm : s.mode = .running) (a : Nat)
    (bs : List Byte) : MeetsInvariants (s.writeBytes a bs) := by
  obtain ⟨hmem, haudio, -, hstack⟩ := h
  have hmode : (s.writeBytes a bs).mode = .running := (s.writeBytes_mode a bs).trans hm
  refine ⟨s.wf_writeBytes a bs hmem, haudio.of_onlyChanges (s.writeBytes_onlyChanges a bs) (by decide) (by decide),
    fun hb => ?_, ?_⟩
  · exact absurd (hmode.symm.trans hb) (by decide)
  · rwa [StackHoldsAddresses, s.writeBytes_stack]

/-- Settles O54: a constructed core is the running reset state with bytes written, for the empty program none. -/
theorem resetMeetsTheInvariants : Obligations.ResetMeetsTheInvariants := by
  refine ⟨fun p s h => ?_, rfl, meetsInvariants_reset⟩
  rw [eq_writeBytes_of_construct h]
  exact meetsInvariants_reset.writeBytes rfl 0x200 p

end Sys2Proof.Machine
